-- ==== Sys2Proof/Syntax.lean ====
section
/-! DEFINITION. The eight operations (spec/30_encoding.md R52; closed at eight, R60). No operation has an operand (R56).
spec/opcode_table.json has one row per decode index k, 94 rows with eight mnemonics; its 87 NOP rows are one operation
(R53: the engine cannot tell them apart), so they are one constructor (log entry 28). -/

namespace Sys2Proof

/-- An operation `Op` of R52. -/
inductive Instr where
  | nop     -- NOP, R110
  | rot     -- ROT, R91
  | crz     -- CRZ, R93
  | movd    -- MOVD, R94
  | input   -- IN, R101 and R102
  | output  -- OUT, R103
  | jmp     -- JMP, R111
  | hlt     -- HLT, R112
deriving DecidableEq, Repr

end Sys2Proof
end

