-- ==== Sys2Proof/Word.lean ====
section
/-! DEFINITION. The one data type of the engine, the cell value, with its ternary digits, the decode index and the
byte of the output (spec/00_scope.md R4, R7, R8; spec/10_state.md R11, R19). -/

namespace Sys2Proof

/-- A cell value, and so also an address and a register value: a natural number below 59049 = 3^10 (R4, R11, R12, R19:
a bounded natural type, under which the range invariant of R12 holds by construction). -/
abbrev Cell := Fin 59049

/-- One ternary digit (R8). -/
abbrev Trit := Fin 3

/-- The decode index of R50 and R51: a number in [0, 93]. -/
abbrev Index := Fin 94

/-- The output value of OUT, the only 8-bit quantity (R7, R103). -/
abbrev Byte := BitVec 8

/-- Reduction of any natural number to an address: the address space is circular (R31). -/
def wrap (n : Nat) : Cell := ⟨n % 59049, Nat.mod_lt n (by decide)⟩

/-- The end-of-input value 59048 (R4, `EOF`). -/
def eofCell : Cell := 59048

end Sys2Proof
end

