-- ==== Sys2Proof/WellFormed.lean ====
section
/-! DEFINITION. Well-formedness of what comes from outside the typed model: raw numbers offered as a decode index, a
cell or an input value. An operation of the machine has no operand (spec/30_encoding.md R56), so every term of `Instr`
is well formed. -/

namespace Sys2Proof

/-- Every operation is well formed: it has no field that could be out of range (R56, R57). -/
def Instr.wellFormed : Instr → Bool
  | .nop => true
  | .rot => true
  | .crz => true
  | .movd => true
  | .input => true
  | .output => true
  | .jmp => true
  | .hlt => true

/-- A number is a decode index when it is in [0, 93] (R50). -/
def indexWellFormed (k : Nat) : Bool := decide (k < 94)

/-- A number is a cell value when it is in [0, 59048] (R4, R11). -/
def cellWellFormed (v : Nat) : Bool := decide (v < 59049)

/-- A number is an input value when it is a byte or the end-of-input value 59048 (R100). -/
def inputWellFormed (x : Nat) : Bool := decide (x < 256) || x == 59048

end Sys2Proof
end

