-- ==== Sys2Proof/Decode.lean ====
section
/-! DEFINITION. From a cell and its address to the operation, and back (spec/30_encoding.md R50 to R61). The default
table of DECODE is PRESUMED by the spec from the published language (R53, G1; log entry 5). -/

namespace Sys2Proof

/-- The decode index k = (v + c) mod 94 of the cell value v at address c, the sum NOT reduced modulo 59049 first (R51). -/
def decodeIndex (v c : Cell) : Index := ⟨(v.val + c.val) % 94, Nat.mod_lt _ (by decide)⟩

/-- The assigned rows of the default DECODE, in the order of R53. PRESUMED by the spec (G1). -/
def assignedRows : List (Nat × Instr) :=
  [(4, .jmp), (5, .output), (23, .input), (39, .rot), (40, .movd), (62, .crz), (68, .nop), (81, .hlt)]

/-- The default DECODE: an assigned row, or NOP for every other index (R52, R53, R54, R57). -/
def decodeDefault (k : Index) : Instr := (assignedRows.lookup k.val).getD .nop

/-- The operation the cell value v selects at address c, with the default DECODE (R51, R53). -/
def decodeCell (v c : Cell) : Instr := decodeDefault (decodeIndex v c)

/-- Why a raw pattern is no instruction. The engine never meets one of these: they are patterns that no rule produces
(R17, R19, U5). -/
inductive DecodeError where
  /-- The 16-bit pattern of the cell is in 59049 to 65535 (R19). -/
  | notACell
  /-- The 16-bit pattern of the address is in 59049 to 65535 (R19). -/
  | notAnAddress
  /-- The number is no decode index: it is not in [0, 93] (R50). -/
  | notAnIndex
deriving DecidableEq, Repr

/-- A 16-bit pattern as a cell value, if it is one (R19). -/
def cellOfBits (b : BitVec 16) : Option Cell :=
  if h : b.toNat < 59049 then some ⟨b.toNat, h⟩ else none

/-- A cell value as its 16-bit pattern, the unsigned binary number of its value (R19). -/
def cellBits (v : Cell) : BitVec 16 := BitVec.ofNat 16 v.val

/-- The decoder on raw bits: the 16-bit pattern of a cell and of its address (R19, R50), total and refusing by name. -/
def decodeBits (cell addr : BitVec 16) : Except DecodeError Instr :=
  match cellOfBits cell, cellOfBits addr with
  | some v, some c => .ok (decodeCell v c)
  | none, _ => .error .notACell
  | some _, none => .error .notAnAddress

/-- A number as a decode index, if it is one (R50). -/
def indexOfNat (k : Nat) : Option Index := if h : k < 94 then some ⟨k, h⟩ else none

/-- The decoder on a bare index. -/
def decodeNat (k : Nat) : Except DecodeError Instr :=
  match indexOfNat k with
  | some k => .ok (decodeDefault k)
  | none => .error .notAnIndex

/-- The decode index that a row of spec/opcode_table.json stands for: the row's mask is always 127, its pattern the
7-bit number k (30_encoding.md, opening; DEDUCED, log entry 13). -/
def tableIndex (nbits w : Nat) : Option Index := if nbits < 7 then none else indexOfNat (w % 128)

/-- The instruction the decoder reads from a row of spec/opcode_table.json whose bits are w. -/
def decodeTableWord (nbits w : Nat) : Option Instr := (tableIndex nbits w).map decodeDefault

/-! ### The two-stage decode of the published language (R55) -/

/-- The permutation PERM of R55. PRESUMED by the spec (G2). -/
def perm : List Nat :=
  [43, 98, 40, 50, 57, 101, 42, 106, 49, 86] ++
  [77, 69, 75, 76, 121, 67, 125, 41, 56, 38] ++
  [109, 35, 126, 87, 62, 113, 120, 100, 82, 112] ++
  [48, 119, 107, 114, 85, 111, 91, 68, 55, 44] ++
  [88, 84, 99, 65, 34, 108, 73, 46, 118, 37] ++
  [123, 103, 74, 104, 52, 71, 92, 45, 61, 79] ++
  [64, 53, 96, 95, 51, 105, 60, 63, 90, 39] ++
  [59, 70, 78, 81, 117, 89, 93, 115, 122, 102] ++
  [36, 33, 66, 83, 47, 124, 116, 58, 80, 110] ++
  [54, 94, 72, 97]

/-- The `meaning` of an instruction character in R55; every other character means NOP. -/
def charMeaning (ch : Nat) : Instr :=
  ([(105, Instr.jmp), (60, .output), (47, .input), (42, .rot), (106, .movd), (112, .crz), (111, .nop), (118, .hlt)].lookup
    ch).getD .nop

/-- The two-stage decode of R55 of the cell value v at address c: PERM at (v - 33 + c) mod 94, written with 61 = 94 - 33
so that no subtraction can go below zero, then `charMeaning`. -/
def decodeTwoStage (v c : Cell) : Instr := charMeaning (perm.getD ((v.val + c.val + 61) % 94) 0)

/-! ### The encoder -/

/-- The decode index that R53 assigns to an operation; for NOP the assigned row 68 (R61). -/
def indexOf : Instr → Index
  | .jmp => 4
  | .output => 5
  | .input => 23
  | .rot => 39
  | .movd => 40
  | .crz => 62
  | .nop => 68
  | .hlt => 81

/-- The cell value in [33, 126] whose decode index at address c is k. A window of 94 values holds exactly one. -/
def encodeIndex (k : Index) (c : Cell) : Cell :=
  ⟨33 + (k.val + 94 - (c.val + 33) % 94) % 94,
    Nat.lt_of_lt_of_le (Nat.add_lt_add_left (Nat.mod_lt _ (by decide)) 33) (by decide)⟩

/-- The function `asm(op, c)` of R61: the cell that holds the operation at address c. -/
def encode (i : Instr) (c : Cell) : Cell := encodeIndex (indexOf i) c

end Sys2Proof
end

