-- ==== Sys2Proof/Config.lean ====
section
/-! DEFINITION. What spec/00_scope.md R5 leaves as named parameters of the model, fixed for the life of the hardware
(spec/10_state.md R22). Their default instantiation is `Params.defaults` (Machine/Params.lean). -/

namespace Sys2Proof

/-- The parameter ROT_DIR of R5 and R90. -/
inductive RotDir where
  | right
  | left
deriving DecidableEq, Repr

/-- The four named parameters of R5. Each type is the one R5 declares, so that every instantiation is total and in
range (R81). -/
structure Params where
  /-- DECODE: decode index to operation (R52). -/
  decode : Index → Instr
  /-- CIPHER: the self-modification substitution on whole cell values (R77). -/
  cipher : Cell → Cell
  /-- CRZ_TRIT: first argument the trit of A, second the trit of the cell at D (R92). -/
  crzTrit : Trit → Trit → Trit
  /-- ROT_DIR: the direction of the one-trit circular shift (R90). -/
  rotDir : RotDir

end Sys2Proof
end

