-- ==== Sys2Proof/Machine/Operands.lean ====
section
/-! DEFINITION. The arithmetic of the engine (spec/41_data_ops.md R90, R92, R95; spec/40_step_cycle.md R77;
spec/42_io_ops.md R103) and the default values of CIPHER, CRZ_TRIT and ROT_DIR. The machine has no flags
(spec/10_state.md R20), so there is no flag computation. -/

namespace Sys2Proof.Machine

/-! ### Ternary digits -/

/-- `trit(v, i)`, digit 0 the least significant (R8). -/
def trit (v : Cell) (i : Nat) : Trit := ⟨v.val / 3 ^ i % 3, Nat.mod_lt _ (by decide)⟩

/-- The sum of f(i) * 3^i over the n lowest digits (R8, R92). -/
def tritSum (f : Nat → Trit) : Nat → Nat
  | 0 => 0
  | n + 1 => tritSum f n + (f n).val * 3 ^ n

/-- n digits make a number below 3^n: no result of R92 needs a reduction (R95). -/
theorem tritSum_lt (f : Nat → Trit) (n : Nat) : tritSum f n < 3 ^ n := by
  induction n with
  | zero => simp [tritSum]
  | succ n ih =>
    have hf : (f n).val * 3 ^ n ≤ 2 * 3 ^ n := Nat.mul_le_mul_right _ (by omega)
    simp only [tritSum, Nat.pow_succ]
    omega

/-- The cell value with the ten digits f(0) to f(9). -/
def cellOfTrits (f : Nat → Trit) : Cell := ⟨tritSum f 10, tritSum_lt f 10⟩

/-! ### rot -/

/-- `rot(v)`: the one-trit circular shift of the ten digits (R90). -/
def rotate (dir : RotDir) (v : Cell) : Cell :=
  match dir with
  | .right => ⟨v.val / 3 + v.val % 3 * 19683, by omega⟩
  | .left => ⟨v.val % 19683 * 3 + v.val / 19683, by omega⟩

/-- The default of ROT_DIR. PRESUMED by the spec (R90, G5; log entry 9). -/
def rotDirDefault : RotDir := .right

/-! ### crz -/

/-- `crz(a, d)`: the table on each digit, no carry (R92). -/
def crazy (table : Trit → Trit → Trit) (a d : Cell) : Cell :=
  cellOfTrits fun i => table (trit a i) (trit d i)

/-- The rows of R92's default table, one row per trit of the cell at D, in each row the results for ta = 0, 1, 2. -/
def crzRows : List (List Trit) :=
  [[1, 0, 0],
   [1, 0, 2],
   [2, 2, 1]]

/-- The default of CRZ_TRIT: first argument the trit of A. PRESUMED by the spec (R92, G4; log entry 8). -/
def crzTritDefault (ta td : Trit) : Trit := (crzRows.getD td.val []).getD ta.val 0

/-! ### CIPHER -/

/-- XLAT2 of R77, entry j for the cell value 33 + j. PRESUMED by the spec (G3; log entry 6). -/
def cipherTable : List Cell :=
  [53, 122, 93, 38, 103, 113, 116, 121, 102, 114] ++
  [36, 40, 119, 101, 52, 123, 87, 80, 41, 72] ++
  [45, 90, 110, 44, 91, 37, 92, 51, 100, 76] ++
  [43, 81, 59, 62, 85, 33, 112, 74, 83, 55] ++
  [50, 70, 104, 79, 65, 49, 67, 66, 54, 118] ++
  [94, 61, 73, 95, 48, 47, 56, 124, 106, 115] ++
  [98, 57, 109, 60, 46, 84, 86, 97, 99, 96] ++
  [117, 89, 42, 77, 75, 39, 88, 126, 120, 68] ++
  [108, 125, 82, 69, 111, 107, 78, 58, 35, 63] ++
  [71, 34, 105, 64]

/-- CIPHER on a value that XLAT2 has no entry for: the cell is left as it is. The spec's own choice (R77, D7, U2; log
entry 7), a definition of its own so that it is easy to replace. -/
def cipherOutside (v : Cell) : Cell := v

/-- The default of CIPHER (R77). -/
def cipherDefault (v : Cell) : Cell :=
  if 33 ≤ v.val ∧ v.val ≤ 126 then cipherTable.getD (v.val - 33) v else cipherOutside v

/-! ### OUT, advance -/

/-- The output value A mod 256 (R103). -/
def outByte (a : Cell) : Byte := BitVec.ofNat 8 (a.val % 256)

/-- The address after c: (c + 1) mod 59049 (R78). -/
def nextAddr (c : Cell) : Cell := wrap (c.val + 1)

end Sys2Proof.Machine
end

