-- ==== Sys2Proof/Machine/Params.lean ====
section
/-! DEFINITION. The default instantiation of the parameters of spec/00_scope.md R5. -/

namespace Sys2Proof.Machine

/-- The default instantiation of R5: R53, R77, R92 and R90. `exec` and `step` are the engine with these. -/
def defaults : Params where
  decode := decodeDefault
  cipher := cipherDefault
  crzTrit := crzTritDefault
  rotDir := rotDirDefault

end Sys2Proof.Machine
end

