-- ==== Sys2Proof/Machine/State.lean ====
section
/-! DEFINITION. The state of one engine instance, plain data: the five-tuple (MEM, IP, A, D, STATUS) of
spec/10_state.md R10 and, beside it, the arguments and results of the steps (spec/40_step_cycle.md R70), which the
fixed form of `step` leaves no other place for. -/

namespace Sys2Proof.Machine

/-- The memory MEM of R11 as the cells that differ from what an unlisted address reads as (`Memory.unlisted`), with
their addresses strictly rising (`Memory.wf`). The cells of this machine are not bytes (R7, R33), so the entries are
(address, cell) pairs and not `Host.Cell` (log entry 1). -/
structure Memory where
  cells : List (Cell × Cell)
deriving DecidableEq, Repr

/-- The execution status of R16. -/
inductive Status where
  | running
  | waitingForInput
  | halted
deriving DecidableEq, Repr

/-- An input value: a byte or end of input, nothing else (R100). -/
inductive InputValue where
  | byte (b : Byte)
  | eof
deriving DecidableEq, Repr

/-- The state. The first five fields are the whole state of the engine (R10); the last three are the MODEL's own: they
carry the input arguments the host chooses (R22, R125) and the results of the last step (R70), and the engine has no
queue behind them (R20; log entries 3 and 4). -/
structure State where
  /-- MEM, R11. -/
  mem : Memory
  /-- IP, R13. -/
  ip : Cell
  /-- A, R14. -/
  a : Cell
  /-- D, R15. -/
  d : Cell
  /-- STATUS, R16. -/
  status : Status
  /-- The host's choice of the input argument, one entry per step, the next step's first; past the end, None. -/
  inputs : List (Option InputValue)
  /-- `out` of the last step (R70). -/
  out : Option Byte
  /-- `in_taken` of the last step (R70). -/
  inTaken : Bool
deriving DecidableEq, Repr

/-- The state of the engine alone, the five-tuple of R10 ("and nothing else"). -/
structure Engine where
  mem : Memory
  ip : Cell
  a : Cell
  d : Cell
  status : Status
deriving DecidableEq, Repr

/-- The engine's part of the state. -/
def State.engine (s : State) : Engine where
  mem := s.mem
  ip := s.ip
  a := s.a
  d := s.d
  status := s.status

/-- No fault exists: the engine raises no exception and a step never stops (R140, R141, R81). A closed type without a
constructor says so: no state of the model can answer a fault. Safe if the spec is right; were an implementation to
stop somewhere, unsafe (log entry 15). -/
inductive Fault where
deriving DecidableEq, Repr

/-- Why a step could be refused. -/
inductive Refusal where
  /-- Raised by an arm of `exec` whose instruction has no meaning yet. No arm raises it: all eight have theirs. Safe. -/
  | notModelled (mnemonic : String)
deriving DecidableEq, Repr

/-- The machine after reset (R21): IP = A = D = 0, STATUS = RUNNING. R21's image is a parameter, which this constant
cannot take: its memory lists no cell, so every cell reads as `Memory.unlisted` (DESIGN CHOICE, log entry 2);
`State.load` is the reset for every image. -/
def State.reset : State where
  mem := ⟨[]⟩
  ip := 0
  a := 0
  d := 0
  status := .running
  inputs := []
  out := none
  inTaken := false

end Sys2Proof.Machine
end

