-- ==== Sys2Proof/Machine/Ops.lean ====
section
/-! DEFINITION. The named operations over memory, registers and the step's arguments and results, and the phases that
all operations share (spec/20_memory.md R30 to R37; spec/40_step_cycle.md R70 to R79). The engine has no exception to
take and none to return from (spec/60_exceptions.md R140, R144, R145): the two early ends of a step are `State.wait`
and `State.halt`. -/

namespace Sys2Proof.Machine

/-! ### Memory -/

/-- What an address without an entry reads as. DESIGN CHOICE (log entry 2): the spec makes the image a parameter
(R21), and every image is a memory of this form. -/
def Memory.unlisted : Cell := 0

/-- The value listed for an address, or `Memory.unlisted`. -/
def lookupCell : List (Cell × Cell) → Cell → Cell
  | [], _ => Memory.unlisted
  | (x, v) :: rest, a => if x = a then v else lookupCell rest a

/-- An entry put in front of the first one whose address is not lower. -/
def insertCell (a v : Cell) : List (Cell × Cell) → List (Cell × Cell)
  | [] => [(a, v)]
  | (x, w) :: rest => if x < a then (x, w) :: insertCell a v rest else (a, v) :: (x, w) :: rest

/-- The entries but those of one address. -/
def eraseCell (a : Cell) : List (Cell × Cell) → List (Cell × Cell)
  | [] => []
  | (x, w) :: rest => if x = a then eraseCell a rest else (x, w) :: eraseCell a rest

/-- The cell at an address (R35). It always succeeds and changes nothing (R36). -/
def Memory.read (m : Memory) (a : Cell) : Cell := lookupCell m.cells a

/-- The memory with one cell replaced (R35). It always succeeds. -/
def Memory.write (m : Memory) (a v : Cell) : Memory :=
  if v = Memory.unlisted then ⟨eraseCell a m.cells⟩ else ⟨insertCell a v (eraseCell a m.cells)⟩

/-- `MemRead(n, 1)` of R35, of any natural number, reduced modulo 59049 (R31). -/
def Memory.memRead (m : Memory) (n : Nat) : Cell := m.read (wrap n)

/-- `MemWrite(n, 1, v)` of R35, of any natural number, reduced modulo 59049 (R31). -/
def Memory.memWrite (m : Memory) (n : Nat) (v : Cell) : Memory := m.write (wrap n) v

/-- The canonical form: addresses strictly rising, and no entry that says what an unlisted address reads as anyway. -/
abbrev Memory.wf (m : Memory) : Prop :=
  m.cells.Pairwise (fun x y => x.1 < y.1) ∧ ∀ e ∈ m.cells, e.2 ≠ Memory.unlisted

/-- The entries of an image of n cells, the addresses rising, without those that read as `Memory.unlisted`.
Irreducible, so that no proof ever counts through the 59049 addresses. -/
@[irreducible] def imageEntries (n : Nat) (img : Fin n → Cell) : List (Fin n × Cell) :=
  ((List.finRange n).map fun a => (a, img a)).filter fun e => decide (e.2 ≠ Memory.unlisted)

/-- The memory that holds the image IMG (R21). -/
def Memory.ofImage (img : Cell → Cell) : Memory := ⟨imageEntries 59049 img⟩

/-- The memory that holds the listed cells, later entries over earlier ones. -/
def Memory.ofCells (cells : List (Cell × Cell)) : Memory :=
  cells.foldl (fun m e => m.write e.1 e.2) ⟨[]⟩

/-! ### Single updates of the state -/

/-- MEM <- m. -/
def State.setMem (s : State) (m : Memory) : State := { s with mem := m }

/-- IP <- v. -/
def State.setIp (s : State) (v : Cell) : State := { s with ip := v }

/-- A <- v. -/
def State.setA (s : State) (v : Cell) : State := { s with a := v }

/-- D <- v. -/
def State.setD (s : State) (v : Cell) : State := { s with d := v }

/-- STATUS <- st. -/
def State.setStatus (s : State) (st : Status) : State := { s with status := st }

/-- The results of the step are given to the host, and its input argument is used up: it was sampled for this step
only, whether the engine took it or not (R70, R124, R126). -/
def State.answer (s : State) (out : Option Byte) (taken : Bool) : State :=
  { s with inputs := s.inputs.tail, out := out, inTaken := taken }

/-- The host's choice of the arguments of the steps to come (R22, R125). -/
def State.setInputs (s : State) (inputs : List (Option InputValue)) : State := { s with inputs := inputs }

/-! ### The input argument -/

/-- `value(x)` of R100: the byte, or 59048 for end of input. -/
def InputValue.value : InputValue → Cell
  | .byte b => ⟨b.toNat, Nat.lt_trans b.isLt (by decide)⟩
  | .eof => eofCell

/-- The argument `inp` of the step about to be taken (R70, R100). -/
def State.inp (s : State) : Option InputValue := s.inputs.head?.join

/-! ### The operand -/

/-- The operand cell MEM[D] (R96: register-indirect through D, the only addressing mode). -/
def State.operand (s : State) : Cell := s.mem.read s.d

/-- MEM[D] <- r and A <- r (R91, R93; their order cannot be observed). -/
def State.storeResult (s : State) (r : Cell) : State := (s.setMem (s.mem.write s.d r)).setA r

/-! ### The phases of the step -/

/-- Phase 2 (R73): the operation the cell at IP decodes to. -/
def State.fetchWith (P : Params) (s : State) : Instr := P.decode (decodeIndex (s.mem.read s.ip) s.ip)

/-- Phase 2 with the default DECODE. -/
def State.fetch (s : State) : Instr := s.fetchWith defaults

/-- Phase 4 (R76): the cell at IP, read now, after the operation, is replaced by its image under CIPHER. No operation
has written IP yet, so IP still is the fetch address c. -/
def State.selfModify (P : Params) (s : State) : State := s.setMem (s.mem.write s.ip (P.cipher (s.mem.read s.ip)))

/-- Phases 4, 5 and 6 of a completed operation (R76, R78, R79): self-modification, IP <- next, STATUS <- RUNNING, and
the step's results. -/
def State.complete (P : Params) (s : State) (next : Cell) (out : Option Byte) (taken : Bool) : State :=
  (((s.selfModify P).setIp next).setStatus .running).answer out taken

/-- `return WAIT` (R75, R102): only STATUS changes. -/
def State.wait (s : State) : State := (s.setStatus .waitingForInput).answer none false

/-- `return HALT` (R75, R112): only STATUS changes. -/
def State.halt (s : State) : State := (s.setStatus .halted).answer none false

/-- A step taken while HALTED (R71): nothing changes and nothing is returned. -/
def State.idle (s : State) : State := s.answer none false

/-! ### Reset and loading -/

/-- The reset event (R21, R160): the whole engine state from an image, nothing of any earlier state kept. The host's
choices for the steps to come are given beside it. -/
def State.load (img : Cell → Cell) (inputs : List (Option InputValue)) : State where
  mem := Memory.ofImage img
  ip := 0
  a := 0
  d := 0
  status := .running
  inputs := inputs
  out := none
  inTaken := false

/-- A cell with decode index k put where the next step fetches, in a state whose next step does fetch: a halted engine
is made to run (R71), any other status is kept (R72). -/
def State.placeIndex (s : State) (k : Index) : State :=
  (s.setMem (s.mem.write s.ip (encodeIndex k s.ip))).setStatus (if s.status = .halted then .running else s.status)

/-- The row of spec/opcode_table.json with the bits w, put where the next step fetches; bits that are no row change
nothing. -/
def State.placeTableWord (s : State) (nbits w : Nat) : State :=
  match tableIndex nbits w with
  | some k => s.placeIndex k
  | none => s

end Sys2Proof.Machine
end

