-- ==== Sys2Proof/Machine/ControlOps.lean ====
section
/-! DEFINITION. NOP, JMP and HLT (spec/43_control_ops.md R110, R111, R112). -/

namespace Sys2Proof.Machine

/-- NOP (R110): nothing in the dispatch phase; the cell is ciphered and IP advances. -/
def nopEffect (P : Params) (s : State) : State := s.complete P (nextAddr s.ip) none false

/-- NOP with the default tables. -/
def execNop (s : State) : Host.Outcome State Fault Refusal := .next (nopEffect defaults s)

/-- JMP (R111): IP <- D in place of the advance; the cell ciphered is the one at the fetch address (R76). -/
def jmpEffect (P : Params) (s : State) : State := s.complete P s.d none false

/-- JMP with the default tables. -/
def execJmp (s : State) : Host.Outcome State Fault Refusal := .next (jmpEffect defaults s)

/-- HLT (R112): the step ends early and only STATUS changes. No table enters. -/
def hltEffect (s : State) : State := s.halt

/-- HLT. -/
def execHlt (s : State) : Host.Outcome State Fault Refusal := .next (hltEffect s)

end Sys2Proof.Machine
end

