-- ==== Sys2Proof/Machine/DataOps.lean ====
section
/-! DEFINITION. ROT, CRZ and MOVD (spec/41_data_ops.md R91, R93, R94). Each is given for every instantiation of the
parameters (spec/00_scope.md R5) and then, as `exec…`, with the defaults. -/

namespace Sys2Proof.Machine

/-- ROT (R91): r = rot(MEM[D]), to MEM[D] and to A. -/
def rotEffect (P : Params) (s : State) : State :=
  (s.storeResult (rotate P.rotDir s.operand)).complete P (nextAddr s.ip) none false

/-- ROT with the default tables. -/
def execRot (s : State) : Host.Outcome State Fault Refusal := .next (rotEffect defaults s)

/-- CRZ (R93): r = crz(A, MEM[D]), to MEM[D] and to A. -/
def crzEffect (P : Params) (s : State) : State :=
  (s.storeResult (crazy P.crzTrit s.a s.operand)).complete P (nextAddr s.ip) none false

/-- CRZ with the default tables. -/
def execCrz (s : State) : Host.Outcome State Fault Refusal := .next (crzEffect defaults s)

/-- MOVD (R94): D <- MEM[D]. -/
def movdEffect (P : Params) (s : State) : State :=
  (s.setD s.operand).complete P (nextAddr s.ip) none false

/-- MOVD with the default tables. -/
def execMovd (s : State) : Host.Outcome State Fault Refusal := .next (movdEffect defaults s)

end Sys2Proof.Machine
end

