-- ==== Sys2Proof/Machine/IoOps.lean ====
section
/-! DEFINITION. IN and OUT (spec/42_io_ops.md R101, R102, R103). -/

namespace Sys2Proof.Machine

/-- IN: with an input value, A <- value(x) and the operation completes (R101; that the destination is A is the spec's
G7, log entry 11); without one, the step ends early and only STATUS changes (R102). -/
def inputEffect (P : Params) (s : State) : State :=
  match s.inp with
  | none => s.wait
  | some x => (s.setA x.value).complete P (nextAddr s.ip) none true

/-- IN with the default tables. -/
def execInput (s : State) : Host.Outcome State Fault Refusal := .next (inputEffect defaults s)

/-- OUT (R103): the output is A mod 256; no register changes. -/
def outputEffect (P : Params) (s : State) : State :=
  s.complete P (nextAddr s.ip) (some (outByte s.a)) false

/-- OUT with the default tables. -/
def execOutput (s : State) : Host.Outcome State Fault Refusal := .next (outputEffect defaults s)

end Sys2Proof.Machine
end

