-- ==== Sys2Proof/Machine/Dispatch.lean ====
section
/-! DEFINITION. Phase 3, dispatch (spec/40_step_cycle.md R74), with the common phases that follow it: one arm per
operation of spec/30_encoding.md R52. -/

namespace Sys2Proof.Machine

/-- The effect of one operation in one state (R74), the status gate and the fetch aside. -/
def exec (i : Instr) (s : State) : Host.Outcome State Fault Refusal :=
  match i with
  | .nop => Sys2Proof.Machine.execNop s
  | .rot => Sys2Proof.Machine.execRot s
  | .crz => Sys2Proof.Machine.execCrz s
  | .movd => Sys2Proof.Machine.execMovd s
  | .input => Sys2Proof.Machine.execInput s
  | .output => Sys2Proof.Machine.execOutput s
  | .jmp => Sys2Proof.Machine.execJmp s
  | .hlt => Sys2Proof.Machine.execHlt s

end Sys2Proof.Machine
end

