-- ==== Sys2Proof/Machine/Step.lean ====
section
/-! DEFINITION. One step of the engine (spec/40_step_cycle.md R80). -/

namespace Sys2Proof.Machine

/-- One application of `step` (R70, R80): the status gate (R71), else fetch and decode (R73) and the operation with its
common phases (R74 to R79). -/
def step (s : State) : Host.Outcome State Fault Refusal :=
  if s.status = .halted then .next s.idle else exec s.fetch s

/-- The row of spec/opcode_table.json with the bits w, stored where `step` fetches its next instruction. -/
def State.withFetchWord (s : State) (nbits w : Nat) : State := s.placeTableWord nbits w

end Sys2Proof.Machine
end

