-- ==== Sys2Proof/Machine/Engine.lean ====
section
/-! DEFINITION. The engine for EVERY instantiation of the parameters DECODE, CIPHER, CRZ_TRIT and ROT_DIR
(spec/00_scope.md R5, spec/40_step_cycle.md R81), and its runs. `Machine.step` is `stepWith defaults`
(Laws/Step.lean, `step_eq`). -/

namespace Sys2Proof.Machine

/-- Phases 3 to 6 (R74 to R79) of the operation i. -/
def effect (P : Params) (i : Instr) (s : State) : State :=
  match i with
  | .nop => nopEffect P s
  | .rot => rotEffect P s
  | .crz => crzEffect P s
  | .movd => movdEffect P s
  | .input => inputEffect P s
  | .output => outputEffect P s
  | .jmp => jmpEffect P s
  | .hlt => hltEffect s

/-- The whole step (R80). It is total (R81): every state has a next one. -/
def stepWith (P : Params) (s : State) : State :=
  if s.status = .halted then s.idle else effect P (s.fetchWith P) s

/-- The operation i, taken in the state s, completes: it does not end the step early (R74, R75). -/
def completes (i : Instr) (s : State) : Bool :=
  match i with
  | .hlt => false
  | .input => s.inp.isSome
  | _ => true

/-- n steps, each with the argument the host chose for it (R6). -/
def runWith (P : Params) : Nat → State → State
  | 0, s => s
  | n + 1, s => runWith P n (stepWith P s)

/-- The output of a run: the values returned by its steps, in step order (R129, R133). -/
def outputsWith (P : Params) : Nat → State → List Byte
  | 0, _ => []
  | n + 1, s => (stepWith P s).out.toList ++ outputsWith P n (stepWith P s)

end Sys2Proof.Machine
end

