-- ==== Sys2Proof/Machine/HostInterface.lean ====
section
/-! DEFINITION. What the host can do to the engine, and the protocol by which it supplies input
(spec/50_host_interface.md R120 to R133; spec/70_reset_and_hazards.md R160). The host has no move that writes the
engine's state other than these (R131). -/

namespace Sys2Proof.Machine

/-- The two operations the interface offers (R121, R122, R131): a successful load, which is the reset event, and one
step with its input argument. -/
inductive HostEvent where
  | load (img : Cell → Cell)
  | step (inp : Option InputValue)

/-- What an event does, in any state (R132). A load keeps nothing of the state it replaces (R160). -/
def State.onEvent (P : Params) (s : State) : HostEvent → State
  | .load img => State.load img []
  | .step inp => stepWith P (s.setInputs [inp])

/-- A sequence of events, first to last. -/
def State.onEvents (P : Params) (s : State) (es : List HostEvent) : State := es.foldl (State.onEvent P) s

/-- A run has ended when STATUS = HALTED (R133). -/
def State.ended (s : State) : Bool := s.status == .halted

/-- The host's own queue of input bytes in arrival order, and whether its input stream has ended (R125, R127). The
queue is the host's, not the engine's (R20). -/
structure Caller where
  queue : List Byte
  streamEnded : Bool
deriving DecidableEq, Repr

/-- The argument a host that follows the protocol gives to the next step: None while RUNNING (and while HALTED); when
the last step returned WAITING_FOR_INPUT, the next queued byte, or end of input once the stream has ended (R125,
R127). -/
def Caller.offer (h : Caller) (st : Status) : Option InputValue :=
  match st, h.queue with
  | .waitingForInput, b :: _ => some (.byte b)
  | .waitingForInput, [] => if h.streamEnded then some .eof else none
  | .running, _ => none
  | .halted, _ => none

/-- The host's queue after a step: a value leaves it exactly when the step reports that it took it (R126). -/
def Caller.after (h : Caller) (taken : Bool) : Caller := if taken then { h with queue := h.queue.tail } else h

/-- An engine and a host that follows the protocol, with the input values the engine has taken and the output values it
has produced so far. -/
structure Session where
  caller : Caller
  state : State
  taken : List InputValue
  outputs : List Byte
deriving DecidableEq, Repr

/-- One step under the protocol. -/
def Session.turn (P : Params) (x : Session) : Session :=
  let inp := x.caller.offer x.state.status
  let t := stepWith P (x.state.setInputs [inp])
  { caller := x.caller.after t.inTaken
    state := t
    taken := x.taken ++ (if t.inTaken then inp.toList else [])
    outputs := x.outputs ++ t.out.toList }

/-- n steps under the protocol. -/
def Session.turns (P : Params) : Nat → Session → Session
  | 0, x => x
  | n + 1, x => Session.turns P n (x.turn P)

end Sys2Proof.Machine
end

