-- ==== Sys2Proof/Machine/Ports.lean ====
section
/-! DEFINITION. The port-level rendering of the interface and the binary encodings (spec/50_host_interface.md R123,
R124, R126; spec/10_state.md R17, R19): the spec's own choice, no part of `step`. -/

namespace Sys2Proof.Machine

/-- The two-bit code of STATUS (R17). -/
def Status.code : Status → BitVec 2
  | .running => 0
  | .waitingForInput => 1
  | .halted => 2

/-- The status a two-bit code stands for; 11 stands for none (R17, U5). -/
def Status.ofCode (b : BitVec 2) : Option Status :=
  if b = 0 then some .running else if b = 1 then some .waitingForInput else if b = 2 then some .halted else none

/-- A breach of the host's duty at the ports; nothing is claimed of the engine then (R126, U4). -/
inductive PortError where
  /-- `in_data` is neither 0 to 255 nor 59048 while `in_valid` is 1. -/
  | notAnInputValue
deriving DecidableEq, Repr

/-- The input argument that `in_valid` and `in_data` carry (R123); `in_data` is ignored when `in_valid` is 0. -/
def inputOfPorts (valid : Bool) (data : BitVec 16) : Except PortError (Option InputValue) :=
  if valid then
    if data.toNat < 256 then .ok (some (.byte (data.setWidth 8)))
    else if data.toNat = 59048 then .ok (some .eof)
    else .error .notAnInputValue
  else .ok none

/-- The input ports of R123. -/
structure PortIn where
  load : Bool
  img : Cell → Cell
  stepReq : Bool
  inValid : Bool
  inData : BitVec 16

/-- The event the input ports ask for, if any: a reset overrides everything (R143), one `step_req` is one step
(R124). -/
def PortIn.event (p : PortIn) : Except PortError (Option HostEvent) :=
  if p.load then .ok (some (.load p.img))
  else if p.stepReq then (inputOfPorts p.inValid p.inData).map fun inp => some (.step inp)
  else .ok none

/-- The output ports of R123. -/
structure PortOut where
  inTaken : Bool
  outValid : Bool
  outData : BitVec 8
  status : BitVec 2
deriving DecidableEq, Repr

/-- The output ports after a step. `idle` is what `out_data` shows when `out_valid` is 0: any value at all (U7; log
entry 18). -/
def State.portOut (idle : BitVec 8) (s : State) : PortOut where
  inTaken := s.inTaken
  outValid := s.out.isSome
  outData := s.out.getD idle
  status := s.status.code

end Sys2Proof.Machine
end

