-- ==== Sys2Proof/Machine/Reference.lean ====
section
/-! DEFINITION. The transition of spec/40_step_cycle.md R80 transcribed as the spec writes it, over a memory that is a
function from addresses to cells: the yardstick the machine is compared with. It is not the machine and is never run. -/

namespace Sys2Proof.Machine

/-- The state (MEM, IP, A, D, STATUS) of R10, with MEM as a function. VMState is the source's name (00_scope.md,
glossary). -/
structure VMState where
  mem : Cell → Cell
  ip : Cell
  a : Cell
  d : Cell
  status : Status

/-- `MemWrite` on a function. -/
def VMState.poke (S : VMState) (x v : Cell) : VMState := { S with mem := fun y => if y = x then v else S.mem y }

/-- What a step returns (R70): the state after, `out`, the status, `in_taken`. -/
structure StepResult where
  state : VMState
  out : Option Byte
  status : Status
  inTaken : Bool

/-- The last four lines of R80: cipher, advance, status, return. -/
def VMState.finish (P : Params) (S : VMState) (c next : Cell) (out : Option Byte) (taken : Bool) : StepResult where
  state := { S.poke c (P.cipher (S.mem c)) with ip := next, status := .running }
  out := out
  status := .running
  inTaken := taken

/-- `step(S, inp)` of R80. -/
def specStep (P : Params) (S : VMState) (inp : Option InputValue) : StepResult :=
  if S.status = .halted then ⟨S, none, .halted, false⟩
  else
    let c := S.ip
    let v := S.mem c
    let k : Index := ⟨(v.val + c.val) % 94, Nat.mod_lt _ (by decide)⟩
    let next : Cell := ⟨(c.val + 1) % 59049, Nat.mod_lt _ (by decide)⟩
    match P.decode k, inp with
    | .nop, _ => S.finish P c next none false
    | .rot, _ =>
      let r := rotate P.rotDir (S.mem S.d)
      { S.poke S.d r with a := r }.finish P c next none false
    | .crz, _ =>
      let r := crazy P.crzTrit S.a (S.mem S.d)
      { S.poke S.d r with a := r }.finish P c next none false
    | .movd, _ => { S with d := S.mem S.d }.finish P c next none false
    | .input, none => ⟨{ S with status := .waitingForInput }, none, .waitingForInput, false⟩
    | .input, some x => { S with a := x.value }.finish P c next none true
    | .output, _ => S.finish P c next (some (BitVec.ofNat 8 (S.a.val % 256))) false
    | .jmp, _ => S.finish P c S.d none false
    | .hlt, _ => ⟨{ S with status := .halted }, none, .halted, false⟩

/-- A run of R80 over a list of input arguments, one per step: the state after it and the output values in step order
(R129). -/
def specRun (P : Params) : List (Option InputValue) → VMState → VMState × List Byte
  | [], S => (S, [])
  | inp :: rest, S =>
    let r := specStep P S inp
    let t := specRun P rest r.state
    (t.1, r.out.toList ++ t.2)

/-- The machine's state as a state of R80. -/
def State.view (s : State) : VMState where
  mem := s.mem.read
  ip := s.ip
  a := s.a
  d := s.d
  status := s.status

end Sys2Proof.Machine
end

