-- ==== Sys2Proof/Safety.lean ====
section
/-! DEFINITION. What claims are made about: the states a host can bring about, and the invariants of the machine. A run of
this engine is safe by the type of its outcomes: no step faults or is refused (spec/40_step_cycle.md R81,
spec/60_exceptions.md R140, R141). -/

namespace Sys2Proof.Machine

/-- The states reached from a reset (R21, for every image), however the host steps the engine, whatever it offers and
however often it loads again (R131, R132). -/
inductive Reachable (P : Params) : State → Prop where
  | load (img : Cell → Cell) (inputs : List (Option InputValue)) : Reachable P (State.load img inputs)
  | offer (s : State) (inputs : List (Option InputValue)) : Reachable P s → Reachable P (s.setInputs inputs)
  | step (s : State) : Reachable P s → Reachable P (stepWith P s)

/-- While waiting, the instruction at IP is IN (R18). -/
def WaitingMeansInput (P : Params) (s : State) : Prop := s.status = .waitingForInput → s.fetchWith P = .input

/-- The memory is in its canonical form. -/
def CanonicalMemory (s : State) : Prop := s.mem.wf

end Sys2Proof.Machine
end

