-- ==== Sys2Proof/Certificates/Slice0/Obligations.lean ====
section
/-! DEFINITION. The statements about the model, for the provers. `P` ranges over every instantiation of the parameters
of spec/00_scope.md R5; `exec` and `step` are the engine with the default ones, which a statement about them names
(`defaults.cipher`, …) without resting on their values, unless its docstring says so. -/

open Sys2Proof Sys2Proof.Machine

/-! ### Decode and encode -/

/-- The encoder `asm` of R61 and the decoder agree at every address: the encoded cell decodes to the operation, lies in
[33, 126], and is the only cell value there with the operation's index. Rests on the default DECODE (log entry 5) and
on R61's syntax, the spec's own D22. -/
def Obligations.EncodeThenDecodeGivesTheOperation : Prop :=
  ∀ (i : Instr) (c : Cell),
    decodeCell (encode i c) c = i ∧ 33 ≤ (encode i c).val ∧ (encode i c).val ≤ 126 ∧
    ∀ v : Cell, 33 ≤ v.val → v.val ≤ 126 → (decodeIndex v c = indexOf i ↔ v = encode i c)

/-- A row of the opcode table placed by `State.withFetchWord` is what the next step fetches and runs, at every
address and from every status (HALTED becomes RUNNING, for a halted engine does not fetch); registers are kept, and
memory but for the cell at IP. How a row's bits are read is the
model's (log entries 12 and 13). -/
def Obligations.PlacedTableRowIsRunByTheNextStep : Prop :=
  ∀ (s : State) (nbits w : Nat), 7 ≤ nbits → w % 128 < 94 →
    ∃ i, decodeTableWord nbits w = some i ∧ (s.withFetchWord nbits w).fetch = i ∧
      step (s.withFetchWord nbits w) = exec i (s.withFetchWord nbits w) ∧
      (s.withFetchWord nbits w).ip = s.ip ∧ (s.withFetchWord nbits w).a = s.a ∧ (s.withFetchWord nbits w).d = s.d ∧
      (s.withFetchWord nbits w).inputs = s.inputs ∧
      (s.withFetchWord nbits w).status = (if s.status = .halted then .running else s.status) ∧
      ∀ x, x ≠ s.ip → (s.withFetchWord nbits w).mem.read x = s.mem.read x

/-- Position dependence, periodicity and the two ends of the address space (R58 a, b, c). -/
def Obligations.DecodeIndexMovesWithTheAddress : Prop :=
  ∀ v c : Cell,
    (c ≠ 59048 → (decodeIndex v (nextAddr c)).val = ((decodeIndex v c).val + 1) % 94) ∧
    (decodeIndex v 59048).val = (v.val + 16) % 94 ∧ (decodeIndex v 0).val = v.val % 94 ∧
    ∀ (P : Params) (v' c' : Cell), (v.val + c.val) % 94 = (v'.val + c'.val) % 94 →
      P.decode (decodeIndex v c) = P.decode (decodeIndex v' c')

/-- At a given address every decode index is selected by 628 or 629 of the 59049 cell values (R58 b). -/
def Obligations.EveryIndexIsSelectedBy628Or629Cells : Prop :=
  ∀ (c : Cell) (k : Index),
    (Finset.univ.filter fun v : Cell => decodeIndex v c = k).card = 628 ∨
    (Finset.univ.filter fun v : Cell => decodeIndex v c = k).card = 629

/-- The default DECODE, all 94 indices (R53, R54). PRESUMED values (log entry 5). -/
def Obligations.DefaultDecodeTable : Prop :=
  decodeDefault 4 = .jmp ∧ decodeDefault 5 = .output ∧ decodeDefault 23 = .input ∧ decodeDefault 39 = .rot ∧
  decodeDefault 40 = .movd ∧ decodeDefault 62 = .crz ∧ decodeDefault 68 = .nop ∧ decodeDefault 81 = .hlt ∧
  ∀ k : Index, k ∉ ([4, 5, 23, 39, 40, 62, 68, 81] : List Index) → decodeDefault k = .nop

/-- The two-stage decode of R55 is the single-stage decode, for every cell value at every address, and PERM is a
permutation of 33 to 126. PRESUMED values (log entry 5). -/
def Obligations.TwoStageDecodeAgrees : Prop :=
  (∀ v c : Cell, decodeTwoStage v c = decodeCell v c) ∧ perm.Perm (List.range' 33 94)

/-- Cells written out from spec/95_test_vectors.md, section 2, decode to the operations it lists. A sanity statement on
the default DECODE (log entry 5). -/
def Obligations.KnownCellsDecode : Prop :=
  decodeCell 97 1 = .jmp ∧ decodeCell 99 0 = .output ∧ decodeCell 117 0 = .input ∧ decodeCell 39 0 = .rot ∧
  decodeCell 134 0 = .movd ∧ decodeCell 62 0 = .crz ∧ decodeCell 52 59048 = .nop ∧ decodeCell 81 94 = .hlt ∧
  decodeCell 81 93 = .nop ∧ decodeIndex 59048 59048 = 32 ∧ decodeCell 59026 10 = .jmp

/-! ### Memory -/

/-- `MemRead` after `MemWrite` (R35), of any natural-number addresses, reduced modulo 59049 (R31). -/
def Obligations.ReadAfterWriteAtReducedAddresses : Prop :=
  ∀ (m : Memory) (n k : Nat) (v : Cell),
    (m.memWrite n v).memRead k = if k % 59049 = n % 59049 then v else m.memRead k

/-- The address space is circular (R31): an access outside [0, 59048] is the access at the address modulo 59049, it
always succeeds, and the advance goes from 59048 to 0. -/
def Obligations.AddressSpaceIsCircular : Prop :=
  (∀ (m : Memory) (n : Nat), m.memRead (n + 59049) = m.memRead n ∧ ∃ x : Cell, x.val = n % 59049 ∧ m.memRead n = m.read x) ∧
  (∀ (m : Memory) (n : Nat) (v : Cell), m.memWrite (n + 59049) v = m.memWrite n v ∧
    ∃ x : Cell, x.val = n % 59049 ∧ m.memWrite n v = m.write x v) ∧
  (∀ c : Cell, (nextAddr c).val = (c.val + 1) % 59049) ∧ nextAddr 59048 = 0 ∧
  ∀ s : State, ∃ t, step s = .next t

/-- Two memories in canonical form that read alike at every address are the same data. About the model's form of memory
(log entry 1). -/
def Obligations.CanonicalMemoriesThatReadAlikeAreEqual : Prop :=
  ∀ m m' : Memory, m.wf → m'.wf → (∀ x, m.read x = m'.read x) → m = m'

/-- Every step keeps memory in its canonical form, whatever the parameters. About the model's form of memory (log
entry 1). -/
def Obligations.EveryStepKeepsMemoryCanonical : Prop :=
  (∀ s t : State, s.mem.wf → step s = .next t → t.mem.wf) ∧
  ∀ (P : Params) (s : State), s.mem.wf → (stepWith P s).mem.wf

/-- The reset state and the state after every load have their memory in canonical form (log entry 1). -/
def Obligations.ResetMemoryIsCanonical : Prop :=
  State.reset.mem.wf ∧ ∀ (img : Cell → Cell) (l : List (Option InputValue)), (State.load img l).mem.wf

/-- A step writes the cell at IP at most, and ROT and CRZ the cell at D as well (R30). -/
def Obligations.StepWritesOnlyTheCellsAtIpAndD : Prop :=
  ∀ (P : Params) (s : State) (x : Cell), x ≠ s.ip →
    (s.fetchWith P = .rot ∨ s.fetchWith P = .crz → x ≠ s.d) → (stepWith P s).mem.read x = s.mem.read x

/-- A step reads the cell at IP, and ROT, CRZ and MOVD the cell at D as well, and a step while HALTED reads none (R30,
R71): another memory that agrees there gives the same registers, status and results, and the same cell wherever the
two memories agreed before. -/
def Obligations.StepReadsOnlyTheCellsAtIpAndD : Prop :=
  ∀ (P : Params) (s : State) (m : Memory),
    (s.status ≠ .halted → m.read s.ip = s.mem.read s.ip) →
    (s.status ≠ .halted → s.fetchWith P = .rot ∨ s.fetchWith P = .crz ∨ s.fetchWith P = .movd →
      m.read s.d = s.mem.read s.d) →
    (stepWith P (s.setMem m)).ip = (stepWith P s).ip ∧ (stepWith P (s.setMem m)).a = (stepWith P s).a ∧
    (stepWith P (s.setMem m)).d = (stepWith P s).d ∧ (stepWith P (s.setMem m)).status = (stepWith P s).status ∧
    (stepWith P (s.setMem m)).out = (stepWith P s).out ∧ (stepWith P (s.setMem m)).inTaken = (stepWith P s).inTaken ∧
    ∀ x, m.read x = s.mem.read x → (stepWith P (s.setMem m)).mem.read x = (stepWith P s).mem.read x

/-- A written cell is what the very next fetch of it decodes (R42), for each of the three writers: ROT and CRZ where D
is the next address, the cipher where JMP goes back to its own cell, and the loader. -/
def Obligations.FetchSeesTheLastWrite : Prop :=
  ∀ (P : Params) (s : State),
    (∀ x v : Cell, (s.setMem (s.mem.write x v)).fetchWith P =
      if s.ip = x then P.decode (decodeIndex v x) else s.fetchWith P) ∧
    (s.status ≠ .halted → s.fetchWith P = .rot → s.d.val = (s.ip.val + 1) % 59049 →
      (stepWith P s).fetchWith P = P.decode (decodeIndex (rotate P.rotDir (s.mem.read s.d)) s.d)) ∧
    (s.status ≠ .halted → s.fetchWith P = .crz → s.d.val = (s.ip.val + 1) % 59049 →
      (stepWith P s).fetchWith P = P.decode (decodeIndex (crazy P.crzTrit s.a (s.mem.read s.d)) s.d)) ∧
    (s.status ≠ .halted → s.fetchWith P = .jmp → s.d = s.ip →
      (stepWith P s).fetchWith P = P.decode (decodeIndex (P.cipher (s.mem.read s.ip)) s.ip)) ∧
    ∀ (img : Cell → Cell) (l : List (Option InputValue)),
      (State.load img l).fetchWith P = P.decode (decodeIndex (img 0) 0)

/-! ### Arithmetic -/

/-- Ten rotations in one direction are the identity, and the directions undo each other (R90). -/
def Obligations.TenRotationsAreTheIdentity : Prop :=
  ∀ (dir : RotDir) (v : Cell),
    (rotate dir)^[10] v = v ∧ rotate .left (rotate .right v) = v ∧ rotate .right (rotate .left v) = v

/-- What the rotation does to each of the ten trits, in either direction (R90, R8). -/
def Obligations.RotationMovesEveryTritOnePlace : Prop :=
  ∀ v : Cell,
    (∀ i, i < 9 → trit (rotate .right v) i = trit v (i + 1)) ∧ trit (rotate .right v) 9 = trit v 0 ∧
    (∀ i, i < 9 → trit (rotate .left v) (i + 1) = trit v i) ∧ trit (rotate .left v) 0 = trit v 9

/-- `crz` looks the table up on each of the ten trits, with no carry between them (R92). -/
def Obligations.CrazyActsTritByTrit : Prop :=
  ∀ (table : Trit → Trit → Trit) (a d : Cell) (i : Nat), i < 10 →
    trit (crazy table a d) i = table (trit a i) (trit d i)

/-- Ten trits are exactly a cell value: its trits give it back, and any ten trits are those of the cell they make
(R8; the numbering is the spec's own D2). -/
def Obligations.TenTritsAreACellValue : Prop :=
  (∀ v : Cell, cellOfTrits (trit v) = v) ∧ ∀ (f : Nat → Trit) (i : Nat), i < 10 → trit (cellOfTrits f) i = f i

/-- The nine entries of the default CRZ_TRIT, first argument the trit of A (R92). PRESUMED values (log entry 8). -/
def Obligations.DefaultCrazyTable : Prop :=
  defaults.crzTrit 0 0 = 1 ∧ defaults.crzTrit 1 0 = 0 ∧ defaults.crzTrit 2 0 = 0 ∧
  defaults.crzTrit 0 1 = 1 ∧ defaults.crzTrit 1 1 = 0 ∧ defaults.crzTrit 2 1 = 2 ∧
  defaults.crzTrit 0 2 = 2 ∧ defaults.crzTrit 1 2 = 2 ∧ defaults.crzTrit 2 2 = 1

/-- The default CIPHER permutes [33, 126] without a fixed point and leaves every other value alone (R77). PRESUMED
table (log entry 6); the identity outside it is the spec's own D7 (log entry 7). -/
def Obligations.DefaultCipherPermutesThePrintableRange : Prop :=
  (∀ v : Cell, 33 ≤ v.val → v.val ≤ 126 →
    33 ≤ (defaults.cipher v).val ∧ (defaults.cipher v).val ≤ 126 ∧ defaults.cipher v ≠ v) ∧
  (∀ v : Cell, v.val < 33 ∨ 126 < v.val → defaults.cipher v = v) ∧ Function.Bijective defaults.cipher

/-! ### The operations, each in every state

In the nine statements that follow, the clause `t.inputs = s.inputs.tail` (the argument of this step is used up, also
where a value was offered and not taken) is no rule of the spec but the model's choice, log entry 3 (DESIGN CHOICE);
each docstring says so again. That an operation other than IN reports `inTaken = false` is R74 and the spec's own D14
(log entry 21). -/

/-- NOP (R110): of the five-tuple only the executed cell (R76), IP (R78) and STATUS (R79) may change. `inTaken = false`
is R74, the spec's own D14 (log entry 21). That the step's argument is used up, even one not taken
(`t.inputs = s.inputs.tail`), is the model's choice (log entry 3). -/
def Obligations.NopCiphersItsCellAndAdvances : Prop :=
  ∀ s : State, ∃ t, exec .nop s = .next t ∧
    t.a = s.a ∧ t.d = s.d ∧ t.ip.val = (s.ip.val + 1) % 59049 ∧ t.status = .running ∧
    t.out = none ∧ t.inTaken = false ∧ t.inputs = s.inputs.tail ∧
    ∀ x, t.mem.read x = if x = s.ip then defaults.cipher (s.mem.read s.ip) else s.mem.read x

/-- ROT (R91): the rotated operand goes to A and to the cell at D, D stays; the executed cell is ciphered, after the
operand was stored (R37), so that where D = IP the rotated value is what CIPHER acts on. `inTaken = false` is R74, the spec's
own D14 (log entry 21). That the step's argument is used up, even one not taken (`t.inputs = s.inputs.tail`), is the
model's choice (log entry 3). -/
def Obligations.RotStoresTheRotatedOperand : Prop :=
  ∀ s : State, ∃ t, exec .rot s = .next t ∧
    t.a = rotate defaults.rotDir (s.mem.read s.d) ∧ t.d = s.d ∧ t.ip.val = (s.ip.val + 1) % 59049 ∧
    t.status = .running ∧ t.out = none ∧ t.inTaken = false ∧ t.inputs = s.inputs.tail ∧
    ∀ x, t.mem.read x =
      if x = s.ip then
        defaults.cipher (if s.ip = s.d then rotate defaults.rotDir (s.mem.read s.d) else s.mem.read s.ip)
      else if x = s.d then rotate defaults.rotDir (s.mem.read s.d) else s.mem.read x

/-- CRZ (R93): crz of A and the operand, in this order, goes to A and to the cell at D; the rest as for ROT.
`inTaken = false` is R74, the spec's own D14 (log entry 21). That the step's argument is used up, even one not taken
(`t.inputs = s.inputs.tail`), is the model's choice (log entry 3). -/
def Obligations.CrzStoresTheCrazyResult : Prop :=
  ∀ s : State, ∃ t, exec .crz s = .next t ∧
    t.a = crazy defaults.crzTrit s.a (s.mem.read s.d) ∧ t.d = s.d ∧ t.ip.val = (s.ip.val + 1) % 59049 ∧
    t.status = .running ∧ t.out = none ∧ t.inTaken = false ∧ t.inputs = s.inputs.tail ∧
    ∀ x, t.mem.read x =
      if x = s.ip then
        defaults.cipher (if s.ip = s.d then crazy defaults.crzTrit s.a (s.mem.read s.d) else s.mem.read s.ip)
      else if x = s.d then crazy defaults.crzTrit s.a (s.mem.read s.d) else s.mem.read x

/-- MOVD (R94): D gets the cell at D as it stood before the cipher; A stays. The operation is the spec's D10 (log
entry 10). `inTaken = false` is R74, the spec's own D14 (log entry 21). That the step's argument is used up, even one
not taken (`t.inputs = s.inputs.tail`), is the model's choice (log entry 3). -/
def Obligations.MovdLoadsD : Prop :=
  ∀ s : State, ∃ t, exec .movd s = .next t ∧
    t.d = s.mem.read s.d ∧ t.a = s.a ∧ t.ip.val = (s.ip.val + 1) % 59049 ∧ t.status = .running ∧
    t.out = none ∧ t.inTaken = false ∧ t.inputs = s.inputs.tail ∧
    ∀ x, t.mem.read x = if x = s.ip then defaults.cipher (s.mem.read s.ip) else s.mem.read x

/-- IN with an input value (R101, R100, R104): a byte b stores b, end of input stores 59048, in A (the spec's D13, log
entry 11); the value is reported as taken (R74), and cipher, advance and status follow (R76, R78, R79). That the
step's argument is used up (`t.inputs = s.inputs.tail`) is the model's choice (log entry 3). -/
def Obligations.InputStoresTheOfferedValue : Prop :=
  ∀ (s : State) (x : InputValue), s.inp = some x → ∃ t, exec .input s = .next t ∧
    (∀ b, x = .byte b → t.a.val = b.toNat) ∧ (x = .eof → t.a.val = 59048) ∧ t.inTaken = true ∧
    t.d = s.d ∧ t.ip.val = (s.ip.val + 1) % 59049 ∧ t.status = .running ∧ t.out = none ∧ t.inputs = s.inputs.tail ∧
    ∀ y, t.mem.read y = if y = s.ip then defaults.cipher (s.mem.read s.ip) else s.mem.read y

/-- IN without an input value (R102): nothing changes but STATUS, nothing is returned, and a waiting step whose
instruction is IN and whose argument is None waits again. That the step's argument, here None, is used up
(`t.inputs = s.inputs.tail`) is the model's choice (log entry 3). -/
def Obligations.InputWithoutAValueWaits : Prop :=
  (∀ s : State, s.inp = none → ∃ t, exec .input s = .next t ∧
    t.mem = s.mem ∧ t.ip = s.ip ∧ t.a = s.a ∧ t.d = s.d ∧ t.status = .waitingForInput ∧
    t.out = none ∧ t.inTaken = false ∧ t.inputs = s.inputs.tail) ∧
  ∀ (P : Params) (s : State), s.status = .waitingForInput → s.fetchWith P = .input → s.inp = none →
    (stepWith P s).engine = s.engine ∧ (stepWith P s).out = none ∧ (stepWith P s).inTaken = false

/-- OUT (R103): the output is the remainder of A modulo 256; neither A nor D changes. `inTaken = false` is R74, the
spec's own D14 (log entry 21). That the step's argument is used up, even one not taken (`t.inputs = s.inputs.tail`), is
the model's choice (log entry 3). -/
def Obligations.OutputGivesTheLowByteOfA : Prop :=
  ∀ s : State, ∃ t b, exec .output s = .next t ∧
    t.out = some b ∧ b.toNat = s.a.val % 256 ∧ t.a = s.a ∧ t.d = s.d ∧ t.ip.val = (s.ip.val + 1) % 59049 ∧
    t.status = .running ∧ t.inTaken = false ∧ t.inputs = s.inputs.tail ∧
    ∀ x, t.mem.read x = if x = s.ip then defaults.cipher (s.mem.read s.ip) else s.mem.read x

/-- JMP (R111): IP gets the value of D, not the cell at D and nothing added; the cell ciphered is the one jumped from
(R76, the spec's D12, log entry 20). `inTaken = false` is R74, the spec's own D14 (log entry 21). That the step's
argument is used up, even one not taken (`t.inputs = s.inputs.tail`), is the model's choice (log entry 3). -/
def Obligations.JmpGoesToTheValueOfD : Prop :=
  ∀ s : State, ∃ t, exec .jmp s = .next t ∧
    t.ip = s.d ∧ t.a = s.a ∧ t.d = s.d ∧ t.status = .running ∧ t.out = none ∧ t.inTaken = false ∧
    t.inputs = s.inputs.tail ∧
    ∀ x, t.mem.read x = if x = s.ip then defaults.cipher (s.mem.read s.ip) else s.mem.read x

/-- HLT (R112): nothing changes but STATUS. That IP keeps the address of the HLT cell is the spec's D17 (log entry
23). `inTaken = false` is R74, the spec's own D14 (log entry 21). That the step's argument is used up, even one not
taken (`t.inputs = s.inputs.tail`), is the model's choice (log entry 3). -/
def Obligations.HltChangesOnlyTheStatus : Prop :=
  ∀ s : State, ∃ t, exec .hlt s = .next t ∧
    t.mem = s.mem ∧ t.ip = s.ip ∧ t.a = s.a ∧ t.d = s.d ∧ t.status = .halted ∧ t.out = none ∧ t.inTaken = false ∧
    t.inputs = s.inputs.tail

/-- Where the operand cell is the instruction cell (R165 a, b, c; R37, the spec's D24, log entry 25): ROT and CRZ leave
CIPHER of their result there, and MOVD loads the cell unciphered. -/
def Obligations.OperandAtIpIsStoredBeforeTheCipher : Prop :=
  ∀ s : State, s.d = s.ip →
    (∃ t, exec .rot s = .next t ∧ t.a = rotate defaults.rotDir (s.mem.read s.ip) ∧
      t.mem.read s.ip = defaults.cipher t.a) ∧
    (∃ t, exec .crz s = .next t ∧ t.a = crazy defaults.crzTrit s.a (s.mem.read s.ip) ∧
      t.mem.read s.ip = defaults.cipher t.a) ∧
    ∃ t, exec .movd s = .next t ∧ t.d = s.mem.read s.ip ∧ t.mem.read s.ip = defaults.cipher t.d

/-! ### The step -/

/-- A step past the status gate is `exec` of the operation the cell at IP decodes to; the step adds nothing else. -/
def Obligations.StepRunsTheDecodedInstruction : Prop :=
  ∀ (s : State) (i : Instr), s.status ≠ .halted → decodeCell (s.mem.read s.ip) s.ip = i → step s = exec i s

/-- The status gate (R71). -/
def Obligations.HaltedStepDoesNothing : Prop :=
  ∀ s : State, s.status = .halted → ∃ t, step s = .next t ∧
    t.mem = s.mem ∧ t.ip = s.ip ∧ t.a = s.a ∧ t.d = s.d ∧ t.status = .halted ∧ t.out = none ∧ t.inTaken = false

/-- RUNNING and WAITING_FOR_INPUT are treated alike (R72): the step from the one is the step from the other. For an
operation other than IN this is the spec's own D18 (log entry 24). -/
def Obligations.WaitingStepIsTheRunningStep : Prop :=
  ∀ (P : Params) (s : State),
    stepWith P (s.setStatus .waitingForInput) = stepWith P (s.setStatus .running) ∧
    step (s.setStatus .waitingForInput) = step (s.setStatus .running) ∧
    (stepWith P (s.setStatus .running)).engine = (effect P (s.fetchWith P) s).engine

/-- The status machine, every row (R18). The rows for WAITING_FOR_INPUT with another operation than IN are the spec's
own D18 (log entry 24). -/
def Obligations.StatusMachine : Prop :=
  ∀ (P : Params) (s : State),
    (s.status = .halted → (stepWith P s).engine = s.engine) ∧
    (s.status ≠ .halted → s.fetchWith P = .hlt →
      (stepWith P s).engine = { s.engine with status := .halted }) ∧
    (s.status ≠ .halted → s.fetchWith P = .input → s.inp = none →
      (stepWith P s).engine = { s.engine with status := .waitingForInput }) ∧
    (s.status ≠ .halted → completes (s.fetchWith P) s = true → (stepWith P s).status = .running)

/-- The advance phase (R78): after a completed step IP is D for JMP and else the next address, 0 after 59048, and D is
not advanced (the spec's own D11, log entry 19). -/
def Obligations.CompletedStepAdvancesOrJumps : Prop :=
  (∀ (P : Params) (s : State), s.status ≠ .halted → completes (s.fetchWith P) s = true →
    ((s.fetchWith P = .jmp → (stepWith P s).ip = s.d) ∧
     (s.fetchWith P ≠ .jmp → (stepWith P s).ip.val = (s.ip.val + 1) % 59049)) ∧
    (s.fetchWith P ≠ .movd → (stepWith P s).d = s.d)) ∧
  nextAddr 59048 = 0

/-- The self-modification phase (R76; that it acts on the fetch address also after JMP is the spec's D12, log entry
20): after a completed step the cell that was executed holds CIPHER of what the operation left there. -/
def Obligations.CompletedStepCiphersTheExecutedCell : Prop :=
  ∀ (P : Params) (s : State), s.status ≠ .halted → completes (s.fetchWith P) s = true →
    (s.d = s.ip → s.fetchWith P = .rot →
      (stepWith P s).mem.read s.ip = P.cipher (rotate P.rotDir (s.mem.read s.ip))) ∧
    (s.d = s.ip → s.fetchWith P = .crz →
      (stepWith P s).mem.read s.ip = P.cipher (crazy P.crzTrit s.a (s.mem.read s.ip))) ∧
    (s.d ≠ s.ip ∨ (s.fetchWith P ≠ .rot ∧ s.fetchWith P ≠ .crz) →
      (stepWith P s).mem.read s.ip = P.cipher (s.mem.read s.ip))

/-- Register A (R14): IN stores the input value, ROT and CRZ their result, which they also store at D (where D = IP the
cipher then acts on it, R37); nothing else writes it; OUT reads its low byte and CRZ takes it as first operand, and
nothing else reads it (another value of A changes nothing but A). That IN stores in A is the spec's own D13 (log entry
11). -/
def Obligations.WhoWritesAndReadsA : Prop :=
  ∀ (P : Params) (s : State),
    (s.status ≠ .halted → ∀ x, s.fetchWith P = .input → s.inp = some x → (stepWith P s).a = x.value) ∧
    (s.status ≠ .halted → s.fetchWith P = .rot → (stepWith P s).a = rotate P.rotDir (s.mem.read s.d)) ∧
    (s.status ≠ .halted → s.fetchWith P = .crz → (stepWith P s).a = crazy P.crzTrit s.a (s.mem.read s.d)) ∧
    (s.status ≠ .halted → s.fetchWith P = .rot ∨ s.fetchWith P = .crz → s.d ≠ s.ip →
      (stepWith P s).mem.read s.d = (stepWith P s).a) ∧
    (s.status ≠ .halted → s.fetchWith P = .rot ∨ s.fetchWith P = .crz → s.d = s.ip →
      (stepWith P s).mem.read s.d = P.cipher (stepWith P s).a) ∧
    (s.status ≠ .halted → s.fetchWith P = .output →
      ∃ b, (stepWith P s).out = some b ∧ b.toNat = s.a.val % 256) ∧
    (s.fetchWith P ≠ .rot → s.fetchWith P ≠ .crz → (s.fetchWith P ≠ .input ∨ s.inp = none) →
      (stepWith P s).a = s.a) ∧
    (s.fetchWith P ≠ .output → s.fetchWith P ≠ .crz → ∀ v : Cell,
      (stepWith P (s.setA v)).setA 0 = (stepWith P s).setA 0)

/-- Register D (R15): only MOVD writes it, and nothing but ROT, CRZ, MOVD and JMP reads it (another value of D changes
nothing but D). That the advance leaves it alone is the spec's D11 (log entry 19). -/
def Obligations.WhoWritesAndReadsD : Prop :=
  ∀ (P : Params) (s : State),
    (s.status ≠ .halted → s.fetchWith P = .movd → (stepWith P s).d = s.mem.read s.d) ∧
    (s.fetchWith P ≠ .movd → (stepWith P s).d = s.d) ∧
    (s.fetchWith P ≠ .rot → s.fetchWith P ≠ .crz → s.fetchWith P ≠ .movd → s.fetchWith P ≠ .jmp → ∀ v : Cell,
      (stepWith P (s.setD v)).setD 0 = (stepWith P s).setD 0)

/-- An output value is produced by OUT and by nothing else, one per OUT executed (R129, R103 d). -/
def Obligations.OnlyOutProducesOutput : Prop :=
  ∀ (P : Params) (s : State) (b : Byte),
    (stepWith P s).out = some b ↔ s.status ≠ .halted ∧ s.fetchWith P = .output ∧ b.toNat = s.a.val % 256

/-- An input value is taken exactly by a step that executes IN, and any other step gives the same engine and output
whatever is offered (R74, R126; the spec's D14, log entry 21). -/
def Obligations.OnlyInTakesInput : Prop :=
  ∀ (P : Params) (s : State),
    ((stepWith P s).inTaken = true ↔ s.status ≠ .halted ∧ s.fetchWith P = .input ∧ s.inp ≠ none) ∧
    (s.status = .halted ∨ s.fetchWith P ≠ .input → ∀ l : List (Option InputValue),
      (stepWith P (s.setInputs l)).engine = (stepWith P s).engine ∧
      (stepWith P (s.setInputs l)).out = (stepWith P s).out)

/-- The machine is the transition of R80: one step, seen as the spec's five-tuple, is `step(S, inp)` of the pseudocode
(with the spec's own D11 to D18 and D24 as R80 has them), and `Machine.step` is that step with the default parameters. -/
def Obligations.StepIsThePseudocodeOfR80 : Prop :=
  (∀ (P : Params) (s : State),
    (stepWith P s).view = (specStep P s.view s.inp).state ∧ (stepWith P s).out = (specStep P s.view s.inp).out ∧
    (stepWith P s).status = (specStep P s.view s.inp).status ∧
    (stepWith P s).inTaken = (specStep P s.view s.inp).inTaken) ∧
  ∀ s : State, step s = .next (stepWith defaults s)

/-! ### Runs -/

/-- Whole runs agree with the pseudocode of R80: for every list of input arguments, the machine stepped through it ends
in the same state and has produced the same output values in the same order (R129). -/
def Obligations.RunsAreRunsOfThePseudocode : Prop :=
  ∀ (P : Params) (ins : List (Option InputValue)) (s : State),
    (runWith P ins.length (s.setInputs ins)).view = (specRun P ins s.view).1 ∧
    outputsWith P ins.length (s.setInputs ins) = (specRun P ins s.view).2

/-- No run faults or is refused, whatever the state and the inputs: k steps of the machine behind the host's interface
are k steps of the engine (R81, R140, R141). -/
def Obligations.EveryRunGoesOn : Prop :=
  ∀ (k : Nat) (s : State), Host.Core.run Sys2Proof.core k s = .next (runWith defaults k s)

/-- HALTED is absorbing (R166, R133): however many steps are asked for and whatever is offered, the engine stays as it
is and outputs nothing. -/
def Obligations.HaltedIsForEver : Prop :=
  ∀ (P : Params) (k : Nat) (s : State), s.status = .halted →
    (runWith P k s).engine = s.engine ∧ outputsWith P k s = [] ∧
    ∃ t, Host.Core.run Sys2Proof.core k s = .next t ∧ t.engine = s.engine

/-- Re-attempt is exact (R83): at an IN, k steps without an input value leave everything but STATUS as it was, return
WAITING_FOR_INPUT and output nothing; when a value x is then given, the engine is the one it would be had IN been
executed with x at once, RUNNING. -/
def Obligations.WaitingIsIdempotentUntilInput : Prop :=
  ∀ (P : Params) (k : Nat) (s : State), s.status ≠ .halted → s.fetchWith P = .input →
    (∀ j, j < k → s.inputs.getD j none = none) →
    (0 < k → (runWith P k s).engine = { s.engine with status := .waitingForInput }) ∧
    outputsWith P k s = [] ∧
    ∀ x, s.inputs.getD k none = some x →
      (runWith P (k + 1) s).engine = (stepWith P (s.setInputs [some x])).engine ∧
      (runWith P (k + 1) s).status = .running ∧ (runWith P (k + 1) s).out = none

/-- No hidden state (R6, R10, R22): two runs of equal engines over equal input arguments go through equal engines and
give equal outputs, whatever the last results were and whatever is offered later. -/
def Obligations.RunsDependOnlyOnEngineAndInputs : Prop :=
  ∀ (P : Params) (k : Nat) (s s' : State), s.engine = s'.engine →
    (∀ j, j < k → s.inputs.getD j none = s'.inputs.getD j none) →
    (runWith P k s).engine = (runWith P k s').engine ∧ outputsWith P k s = outputsWith P k s'

/-- While the engine waits, the instruction at IP is IN: every step keeps it (R18). -/
def Obligations.EveryStepKeepsWaitingMeansInput : Prop :=
  (∀ s t : State, WaitingMeansInput defaults s → step s = .next t → WaitingMeansInput defaults t) ∧
  ∀ (P : Params) (s : State), WaitingMeansInput P s → WaitingMeansInput P (stepWith P s)

/-- The reset states meet it. -/
def Obligations.ResetMeetsWaitingMeansInput : Prop :=
  ∀ P : Params, WaitingMeansInput P State.reset ∧
    ∀ (img : Cell → Cell) (l : List (Option InputValue)), WaitingMeansInput P (State.load img l)

/-- In every state that a host can bring about from a reset, with any image and any inputs, the engine waits only at an
IN (R18) and memory is canonical (log entry 1). -/
def Obligations.ReachableStatesWaitOnlyAtInput : Prop :=
  ∀ (P : Params) (s : State), Reachable P s → WaitingMeansInput P s ∧ CanonicalMemory s

/-! ### Reset and the host -/

/-- The reset event, in any state (R21, R160): the registers and status at their reset values, every cell as the image
has it, nothing kept of the state before; the first step then decodes the cell of address 0 by its value modulo 94
(R161). The image as a parameter is the spec's own D20. -/
def Obligations.LoadGivesTheResetStateOfItsImage : Prop :=
  ∀ (P : Params) (s : State) (img : Cell → Cell),
    (s.onEvent P (.load img)).ip = 0 ∧ (s.onEvent P (.load img)).a = 0 ∧ (s.onEvent P (.load img)).d = 0 ∧
    (s.onEvent P (.load img)).status = .running ∧ (∀ x, (s.onEvent P (.load img)).mem.read x = img x) ∧
    ∀ k : Index, k.val = (img 0).val % 94 → (s.onEvent P (.load img)).fetchWith P = P.decode k

/-- The fixed reset state has R21's registers and status and is the load of the image of zeros. The image is the
model's choice (log entry 2), for want of an argument. -/
def Obligations.ResetStateIsTheLoadOfTheZeroImage : Prop :=
  State.reset.ip = 0 ∧ State.reset.a = 0 ∧ State.reset.d = 0 ∧ State.reset.status = .running ∧
  State.reset = State.load (fun _ => 0) []

/-- Under the protocol of R125, from a state that waits only at an IN, every value offered is taken by the step it is
offered to, and lands in A (the spec's own D13 and D14, log entries 11 and 21). -/
def Obligations.ValueOfferedUnderTheProtocolIsTaken : Prop :=
  ∀ (P : Params) (x : Session) (v : InputValue), WaitingMeansInput P x.state →
    x.caller.offer x.state.status = some v →
    (x.turn P).state.inTaken = true ∧ (x.turn P).state.a = v.value ∧ (x.turn P).taken = x.taken ++ [v] ∧
    (x.turn P).caller.queue = x.caller.queue.tail

/-- Under the protocol of R125 and R127 the engine takes the queued bytes in arrival order, each once, and end of input
only after the last of them, once the stream has ended. What a step takes is reported by `in_taken`, the spec's own
D14 (log entry 21); the host is the model's (log entry 27). -/
def Obligations.ProtocolTakesInputsInArrivalOrder : Prop :=
  ∀ (P : Params) (k : Nat) (x : Session), ∃ n m : Nat, n ≤ x.caller.queue.length ∧
    (Session.turns P k x).taken =
      x.taken ++ ((x.caller.queue.take n).map InputValue.byte ++ List.replicate m InputValue.eof) ∧
    (Session.turns P k x).caller.queue = x.caller.queue.drop n ∧
    (0 < m → n = x.caller.queue.length ∧ x.caller.streamEnded = true)

/-- The binary encodings (R17, R19) and the input ports (R123, R126): STATUS is 00, 01 or 10, a cell's pattern is the
unsigned binary number of its value, both are read back, the patterns no rule produces stand for nothing, and
`in_data` gives exactly the input values. The encodings are the spec's own D2, D3 and D19 (log entry 18). -/
def Obligations.PortEncodingsAreExact : Prop :=
  Status.code .running = 0 ∧ Status.code .waitingForInput = 1 ∧ Status.code .halted = 2 ∧
  (∀ st : Status, Status.ofCode st.code = some st) ∧ Status.ofCode 3 = none ∧
  (∀ v : Cell, (cellBits v).toNat = v.val) ∧
  (∀ v : Cell, cellOfBits (cellBits v) = some v) ∧
  (∀ b : BitVec 16, 59049 ≤ b.toNat → cellOfBits b = none) ∧
  (∀ x : InputValue, inputOfPorts true (cellBits x.value) = .ok (some x)) ∧
  (∀ b : BitVec 16, 256 ≤ b.toNat → b.toNat ≠ 59048 → inputOfPorts true b = .error .notAnInputValue) ∧
  ∀ b : BitVec 16, inputOfPorts false b = .ok none

/-- The input ports: a load overrides a step request (R143), a step request alone is one step with the argument the
ports carry (R124), and without either nothing happens. The ports are the spec's own D19. -/
def Obligations.LoadOverridesAStepRequest : Prop :=
  ∀ p : PortIn,
    (p.load = true → p.event = .ok (some (.load p.img))) ∧
    (p.load = false → p.stepReq = true → ∀ inp, inputOfPorts p.inValid p.inData = .ok inp →
      p.event = .ok (some (.step inp))) ∧
    (p.load = false → p.stepReq = false → p.event = .ok none)
end

