-- ==== Sys2Proof/Laws/Memory.lean ====
section
/-! SUPPORT. What a read sees after a write, and that every memory operation keeps the canonical form. -/

namespace Sys2Proof.Machine

theorem lookupCell_eraseCell (l : List (Cell × Cell)) (a b : Cell) :
    lookupCell (eraseCell a l) b = if b = a then Memory.unlisted else lookupCell l b := by
  induction l with
  | nil => simp [eraseCell, lookupCell]
  | cons e l ih =>
    obtain ⟨x, w⟩ := e
    by_cases hx : x = a
    · by_cases hb : b = a
      · simpa [eraseCell, hx, hb] using ih
      · simp [eraseCell, lookupCell, ih, hx, hb, Ne.symm hb]
    · by_cases hb : b = a
      · subst hb
        simpa [eraseCell, lookupCell, hx] using ih
      · simp [eraseCell, lookupCell, ih, hx, hb]

/-- Putting in an entry for an address that has none. -/
theorem lookupCell_insertCell (l : List (Cell × Cell)) (a v b : Cell) (ha : ∀ e ∈ l, e.1 ≠ a) :
    lookupCell (insertCell a v l) b = if b = a then v else lookupCell l b := by
  induction l with
  | nil =>
    by_cases hb : b = a
    · simp [insertCell, lookupCell, hb]
    · simp [insertCell, lookupCell, hb, Ne.symm hb]
  | cons e l ih =>
    obtain ⟨x, w⟩ := e
    have hx : x ≠ a := ha (x, w) (by simp)
    have ih := ih fun e he => ha e (by simp [he])
    by_cases hlt : x < a
    · by_cases hb : b = a
      · subst hb
        simp [insertCell, lookupCell, hlt, ih, hx]
      · simp [insertCell, lookupCell, hlt, ih, hb]
    · by_cases hb : b = a
      · simp [insertCell, lookupCell, hlt, hb]
      · simp [insertCell, lookupCell, hlt, hb, Ne.symm hb]

theorem eraseCell_subset (l : List (Cell × Cell)) (a : Cell) : ∀ e ∈ eraseCell a l, e ∈ l ∧ e.1 ≠ a := by
  induction l with
  | nil => simp [eraseCell]
  | cons e l ih =>
    obtain ⟨x, w⟩ := e
    intro e he
    by_cases hx : x = a
    · simp only [eraseCell, hx, if_true] at he
      exact ⟨List.mem_cons_of_mem _ (ih e he).1, (ih e he).2⟩
    · simp only [eraseCell, hx, if_false, List.mem_cons] at he
      rcases he with rfl | he
      · exact ⟨by simp, hx⟩
      · exact ⟨List.mem_cons_of_mem _ (ih e he).1, (ih e he).2⟩

theorem mem_insertCell (l : List (Cell × Cell)) (a v : Cell) (e : Cell × Cell) :
    e ∈ insertCell a v l ↔ e = (a, v) ∨ e ∈ l := by
  induction l with
  | nil => simp [insertCell]
  | cons f l ih =>
    obtain ⟨x, w⟩ := f
    by_cases hlt : x < a
    · simp only [insertCell, hlt, if_true, List.mem_cons, ih]
      tauto
    · simp [insertCell, hlt]

/-- A read after a write gives the value written at its address and what stood there everywhere else (R35). It holds of
every memory, canonical or not. -/
theorem Memory.read_write (m : Memory) (a v b : Cell) : (m.write a v).read b = if b = a then v else m.read b := by
  by_cases hv : v = Memory.unlisted
  · simp [Memory.write, Memory.read, hv, lookupCell_eraseCell]
  · have ha := fun e he => (eraseCell_subset m.cells a e he).2
    simp only [Memory.write, Memory.read, hv, if_false, lookupCell_insertCell _ a v b ha, lookupCell_eraseCell]
    by_cases hb : b = a <;> simp [hb]

theorem Memory.read_write_same (m : Memory) (a v : Cell) : (m.write a v).read a = v := by
  rw [Memory.read_write, if_pos rfl]

theorem Memory.read_write_other (m : Memory) (a v b : Cell) (h : b ≠ a) : (m.write a v).read b = m.read b := by
  rw [Memory.read_write, if_neg h]

theorem eraseCell_rising (l : List (Cell × Cell)) (a : Cell) (h : l.Pairwise fun x y => x.1 < y.1) :
    (eraseCell a l).Pairwise fun x y => x.1 < y.1 := by
  induction l with
  | nil => simp [eraseCell]
  | cons e l ih =>
    obtain ⟨x, w⟩ := e
    rw [List.pairwise_cons] at h
    by_cases hx : x = a
    · simpa [eraseCell, hx] using ih h.2
    · simp only [eraseCell, hx, if_false, List.pairwise_cons]
      exact ⟨fun e he => h.1 e (eraseCell_subset l a e he).1, ih h.2⟩

theorem insertCell_rising (l : List (Cell × Cell)) (a v : Cell) (ha : ∀ e ∈ l, e.1 ≠ a)
    (h : l.Pairwise fun x y => x.1 < y.1) : (insertCell a v l).Pairwise fun x y => x.1 < y.1 := by
  induction l with
  | nil => simp [insertCell]
  | cons e l ih =>
    obtain ⟨x, w⟩ := e
    have hx : x ≠ a := ha (x, w) (by simp)
    by_cases hlt : x < a
    · rw [List.pairwise_cons] at h
      simp only [insertCell, hlt, if_true, List.pairwise_cons]
      refine ⟨fun e he => ?_, ih (fun e he => ha e (by simp [he])) h.2⟩
      rcases (mem_insertCell l a v e).1 he with rfl | he
      · exact hlt
      · exact h.1 e he
    · have hax : a < x := lt_of_le_of_ne (not_lt.1 hlt) (Ne.symm hx)
      simp only [insertCell, hlt, if_false, List.pairwise_cons]
      refine ⟨fun e he => ?_, List.pairwise_cons.1 h⟩
      rcases List.mem_cons.1 he with rfl | he
      · exact hax
      · exact lt_trans hax ((List.pairwise_cons.1 h).1 e he)

/-- A write keeps the canonical form. -/
theorem Memory.write_wf (m : Memory) (a v : Cell) (h : m.wf) : (m.write a v).wf := by
  by_cases hv : v = Memory.unlisted
  · simp only [Memory.write, hv, if_true]
    exact ⟨eraseCell_rising _ _ h.1, fun e he => h.2 e (eraseCell_subset _ _ e he).1⟩
  · simp only [Memory.write, hv, if_false]
    refine ⟨insertCell_rising _ _ _ (fun e he => (eraseCell_subset _ _ e he).2) (eraseCell_rising _ _ h.1), fun e he => ?_⟩
    rcases (mem_insertCell _ _ _ e).1 he with rfl | he
    · exact hv
    · exact h.2 e (eraseCell_subset _ _ e he).1

theorem Memory.memWrite_wf (m : Memory) (n : Nat) (v : Cell) (h : m.wf) : (m.memWrite n v).wf := m.write_wf _ v h

theorem imageEntries_rising (n : Nat) (img : Fin n → Cell) :
    (imageEntries n img).Pairwise fun x y => x.1 < y.1 := by
  rw [imageEntries]
  apply List.Pairwise.filter
  rw [List.pairwise_map]
  exact List.pairwise_lt_finRange n

/-- The entries of an image are the addresses whose cell does not read as `Memory.unlisted`, with their cells. -/
theorem mem_imageEntries (n : Nat) (img : Fin n → Cell) (e : Fin n × Cell) :
    e ∈ imageEntries n img ↔ e.2 = img e.1 ∧ e.2 ≠ Memory.unlisted := by
  obtain ⟨a, v⟩ := e
  simp only [imageEntries, List.mem_filter, List.mem_map, List.mem_finRange, true_and, Prod.mk.injEq, decide_eq_true_eq]
  constructor
  · rintro ⟨⟨b, rfl, rfl⟩, h⟩
    exact ⟨rfl, h⟩
  · rintro ⟨rfl, h⟩
    exact ⟨⟨a, rfl, rfl⟩, h⟩

/-- The memory of an image is in canonical form. -/
theorem Memory.ofImage_wf (img : Cell → Cell) : (Memory.ofImage img).wf :=
  ⟨imageEntries_rising 59049 img, fun e he => ((mem_imageEntries 59049 img e).1 he).2⟩

/-- A memory given cell by cell is in canonical form. -/
theorem Memory.ofCells_wf (l : List (Cell × Cell)) : (Memory.ofCells l).wf := by
  suffices h : ∀ m : Memory, m.wf → (l.foldl (fun m e => m.write e.1 e.2) m).wf from
    h ⟨[]⟩ ⟨List.Pairwise.nil, by simp⟩
  induction l with
  | nil => exact fun m hm => hm
  | cons e l ih => exact fun m hm => ih _ (m.write_wf _ _ hm)

/-- The memory of `State.reset` is in canonical form. -/
theorem reset_mem_wf : State.reset.mem.wf := ⟨List.Pairwise.nil, by simp [State.reset]⟩

end Sys2Proof.Machine
end

