-- ==== Sys2Proof/Laws/State.lean ====
section
/-! SUPPORT. One lemma per field per update of `State`, each true by `rfl`, so that no later proof unfolds a record
update. -/

namespace Sys2Proof.Machine

section setMem

variable (s : State) (m : Memory)

@[simp] theorem State.setMem_mem : (s.setMem m).mem = m := rfl
@[simp] theorem State.setMem_ip : (s.setMem m).ip = s.ip := rfl
@[simp] theorem State.setMem_a : (s.setMem m).a = s.a := rfl
@[simp] theorem State.setMem_d : (s.setMem m).d = s.d := rfl
@[simp] theorem State.setMem_status : (s.setMem m).status = s.status := rfl
@[simp] theorem State.setMem_inputs : (s.setMem m).inputs = s.inputs := rfl
@[simp] theorem State.setMem_out : (s.setMem m).out = s.out := rfl
@[simp] theorem State.setMem_inTaken : (s.setMem m).inTaken = s.inTaken := rfl

end setMem

section setIp

variable (s : State) (v : Cell)

@[simp] theorem State.setIp_mem : (s.setIp v).mem = s.mem := rfl
@[simp] theorem State.setIp_ip : (s.setIp v).ip = v := rfl
@[simp] theorem State.setIp_a : (s.setIp v).a = s.a := rfl
@[simp] theorem State.setIp_d : (s.setIp v).d = s.d := rfl
@[simp] theorem State.setIp_status : (s.setIp v).status = s.status := rfl
@[simp] theorem State.setIp_inputs : (s.setIp v).inputs = s.inputs := rfl
@[simp] theorem State.setIp_out : (s.setIp v).out = s.out := rfl
@[simp] theorem State.setIp_inTaken : (s.setIp v).inTaken = s.inTaken := rfl

end setIp

section setA

variable (s : State) (v : Cell)

@[simp] theorem State.setA_mem : (s.setA v).mem = s.mem := rfl
@[simp] theorem State.setA_ip : (s.setA v).ip = s.ip := rfl
@[simp] theorem State.setA_a : (s.setA v).a = v := rfl
@[simp] theorem State.setA_d : (s.setA v).d = s.d := rfl
@[simp] theorem State.setA_status : (s.setA v).status = s.status := rfl
@[simp] theorem State.setA_inputs : (s.setA v).inputs = s.inputs := rfl
@[simp] theorem State.setA_out : (s.setA v).out = s.out := rfl
@[simp] theorem State.setA_inTaken : (s.setA v).inTaken = s.inTaken := rfl

end setA

section setD

variable (s : State) (v : Cell)

@[simp] theorem State.setD_mem : (s.setD v).mem = s.mem := rfl
@[simp] theorem State.setD_ip : (s.setD v).ip = s.ip := rfl
@[simp] theorem State.setD_a : (s.setD v).a = s.a := rfl
@[simp] theorem State.setD_d : (s.setD v).d = v := rfl
@[simp] theorem State.setD_status : (s.setD v).status = s.status := rfl
@[simp] theorem State.setD_inputs : (s.setD v).inputs = s.inputs := rfl
@[simp] theorem State.setD_out : (s.setD v).out = s.out := rfl
@[simp] theorem State.setD_inTaken : (s.setD v).inTaken = s.inTaken := rfl

end setD

section setStatus

variable (s : State) (st : Status)

@[simp] theorem State.setStatus_mem : (s.setStatus st).mem = s.mem := rfl
@[simp] theorem State.setStatus_ip : (s.setStatus st).ip = s.ip := rfl
@[simp] theorem State.setStatus_a : (s.setStatus st).a = s.a := rfl
@[simp] theorem State.setStatus_d : (s.setStatus st).d = s.d := rfl
@[simp] theorem State.setStatus_status : (s.setStatus st).status = st := rfl
@[simp] theorem State.setStatus_inputs : (s.setStatus st).inputs = s.inputs := rfl
@[simp] theorem State.setStatus_out : (s.setStatus st).out = s.out := rfl
@[simp] theorem State.setStatus_inTaken : (s.setStatus st).inTaken = s.inTaken := rfl

end setStatus

section setInputs

variable (s : State) (l : List (Option InputValue))

@[simp] theorem State.setInputs_mem : (s.setInputs l).mem = s.mem := rfl
@[simp] theorem State.setInputs_ip : (s.setInputs l).ip = s.ip := rfl
@[simp] theorem State.setInputs_a : (s.setInputs l).a = s.a := rfl
@[simp] theorem State.setInputs_d : (s.setInputs l).d = s.d := rfl
@[simp] theorem State.setInputs_status : (s.setInputs l).status = s.status := rfl
@[simp] theorem State.setInputs_inputs : (s.setInputs l).inputs = l := rfl
@[simp] theorem State.setInputs_out : (s.setInputs l).out = s.out := rfl
@[simp] theorem State.setInputs_inTaken : (s.setInputs l).inTaken = s.inTaken := rfl

end setInputs

section answer

variable (s : State) (o : Option Byte) (b : Bool)

@[simp] theorem State.answer_mem : (s.answer o b).mem = s.mem := rfl
@[simp] theorem State.answer_ip : (s.answer o b).ip = s.ip := rfl
@[simp] theorem State.answer_a : (s.answer o b).a = s.a := rfl
@[simp] theorem State.answer_d : (s.answer o b).d = s.d := rfl
@[simp] theorem State.answer_status : (s.answer o b).status = s.status := rfl
@[simp] theorem State.answer_inputs : (s.answer o b).inputs = s.inputs.tail := rfl
@[simp] theorem State.answer_out : (s.answer o b).out = o := rfl
@[simp] theorem State.answer_inTaken : (s.answer o b).inTaken = b := rfl

end answer

section storeResult

variable (s : State) (r : Cell)

@[simp] theorem State.storeResult_mem : (s.storeResult r).mem = s.mem.write s.d r := rfl
@[simp] theorem State.storeResult_ip : (s.storeResult r).ip = s.ip := rfl
@[simp] theorem State.storeResult_a : (s.storeResult r).a = r := rfl
@[simp] theorem State.storeResult_d : (s.storeResult r).d = s.d := rfl
@[simp] theorem State.storeResult_status : (s.storeResult r).status = s.status := rfl
@[simp] theorem State.storeResult_inputs : (s.storeResult r).inputs = s.inputs := rfl
@[simp] theorem State.storeResult_out : (s.storeResult r).out = s.out := rfl
@[simp] theorem State.storeResult_inTaken : (s.storeResult r).inTaken = s.inTaken := rfl

end storeResult

section selfModify

variable (s : State) (P : Params)

@[simp] theorem State.selfModify_mem : (s.selfModify P).mem = s.mem.write s.ip (P.cipher (s.mem.read s.ip)) := rfl
@[simp] theorem State.selfModify_ip : (s.selfModify P).ip = s.ip := rfl
@[simp] theorem State.selfModify_a : (s.selfModify P).a = s.a := rfl
@[simp] theorem State.selfModify_d : (s.selfModify P).d = s.d := rfl
@[simp] theorem State.selfModify_status : (s.selfModify P).status = s.status := rfl
@[simp] theorem State.selfModify_inputs : (s.selfModify P).inputs = s.inputs := rfl
@[simp] theorem State.selfModify_out : (s.selfModify P).out = s.out := rfl
@[simp] theorem State.selfModify_inTaken : (s.selfModify P).inTaken = s.inTaken := rfl

end selfModify

section complete

variable (s : State) (P : Params) (n : Cell) (o : Option Byte) (b : Bool)

@[simp] theorem State.complete_mem : (s.complete P n o b).mem = s.mem.write s.ip (P.cipher (s.mem.read s.ip)) := rfl
@[simp] theorem State.complete_ip : (s.complete P n o b).ip = n := rfl
@[simp] theorem State.complete_a : (s.complete P n o b).a = s.a := rfl
@[simp] theorem State.complete_d : (s.complete P n o b).d = s.d := rfl
@[simp] theorem State.complete_status : (s.complete P n o b).status = .running := rfl
@[simp] theorem State.complete_inputs : (s.complete P n o b).inputs = s.inputs.tail := rfl
@[simp] theorem State.complete_out : (s.complete P n o b).out = o := rfl
@[simp] theorem State.complete_inTaken : (s.complete P n o b).inTaken = b := rfl

end complete

section wait

variable (s : State)

@[simp] theorem State.wait_mem : s.wait.mem = s.mem := rfl
@[simp] theorem State.wait_ip : s.wait.ip = s.ip := rfl
@[simp] theorem State.wait_a : s.wait.a = s.a := rfl
@[simp] theorem State.wait_d : s.wait.d = s.d := rfl
@[simp] theorem State.wait_status : s.wait.status = .waitingForInput := rfl
@[simp] theorem State.wait_inputs : s.wait.inputs = s.inputs.tail := rfl
@[simp] theorem State.wait_out : s.wait.out = none := rfl
@[simp] theorem State.wait_inTaken : s.wait.inTaken = false := rfl

end wait

section halt

variable (s : State)

@[simp] theorem State.halt_mem : s.halt.mem = s.mem := rfl
@[simp] theorem State.halt_ip : s.halt.ip = s.ip := rfl
@[simp] theorem State.halt_a : s.halt.a = s.a := rfl
@[simp] theorem State.halt_d : s.halt.d = s.d := rfl
@[simp] theorem State.halt_status : s.halt.status = .halted := rfl
@[simp] theorem State.halt_inputs : s.halt.inputs = s.inputs.tail := rfl
@[simp] theorem State.halt_out : s.halt.out = none := rfl
@[simp] theorem State.halt_inTaken : s.halt.inTaken = false := rfl

end halt

section idle

variable (s : State)

@[simp] theorem State.idle_mem : s.idle.mem = s.mem := rfl
@[simp] theorem State.idle_ip : s.idle.ip = s.ip := rfl
@[simp] theorem State.idle_a : s.idle.a = s.a := rfl
@[simp] theorem State.idle_d : s.idle.d = s.d := rfl
@[simp] theorem State.idle_status : s.idle.status = s.status := rfl
@[simp] theorem State.idle_inputs : s.idle.inputs = s.inputs.tail := rfl
@[simp] theorem State.idle_out : s.idle.out = none := rfl
@[simp] theorem State.idle_inTaken : s.idle.inTaken = false := rfl

end idle

section load

variable (img : Cell → Cell) (l : List (Option InputValue))

@[simp] theorem State.load_mem : (State.load img l).mem = Memory.ofImage img := rfl
@[simp] theorem State.load_ip : (State.load img l).ip = 0 := rfl
@[simp] theorem State.load_a : (State.load img l).a = 0 := rfl
@[simp] theorem State.load_d : (State.load img l).d = 0 := rfl
@[simp] theorem State.load_status : (State.load img l).status = .running := rfl
@[simp] theorem State.load_inputs : (State.load img l).inputs = l := rfl
@[simp] theorem State.load_out : (State.load img l).out = none := rfl
@[simp] theorem State.load_inTaken : (State.load img l).inTaken = false := rfl

end load

section view

variable (s : State)

@[simp] theorem State.engine_mem : s.engine.mem = s.mem := rfl
@[simp] theorem State.engine_ip : s.engine.ip = s.ip := rfl
@[simp] theorem State.engine_a : s.engine.a = s.a := rfl
@[simp] theorem State.engine_d : s.engine.d = s.d := rfl
@[simp] theorem State.engine_status : s.engine.status = s.status := rfl

/-- Two states have the same engine when they agree in the five components of R10. -/
theorem State.engine_eq_iff (s t : State) :
    s.engine = t.engine ↔ s.mem = t.mem ∧ s.ip = t.ip ∧ s.a = t.a ∧ s.d = t.d ∧ s.status = t.status := by
  simp [State.engine]

/-- The host's choice of the next arguments leaves the engine alone. -/
@[simp] theorem State.setInputs_engine (l : List (Option InputValue)) : (s.setInputs l).engine = s.engine := rfl

@[simp] theorem State.answer_engine (o : Option Byte) (b : Bool) : (s.answer o b).engine = s.engine := rfl

@[simp] theorem State.idle_engine : s.idle.engine = s.engine := rfl

/-- The argument of the next step after the host has chosen it. -/
@[simp] theorem State.setInputs_inp (x : Option InputValue) (l : List (Option InputValue)) :
    (s.setInputs (x :: l)).inp = x := rfl

end view

end Sys2Proof.Machine
end

