-- ==== Sys2Proof/Laws/Ops.lean ====
section
/-! SUPPORT. What each shared operation does, said once: what memory reads as after it, and that the memory stays
canonical. -/

namespace Sys2Proof.Machine

/-- Memory after ROT or CRZ has stored its result (R91, R93). -/
theorem State.storeResult_read (s : State) (r x : Cell) :
    (s.storeResult r).mem.read x = if x = s.d then r else s.mem.read x := by
  rw [State.storeResult_mem, Memory.read_write]

/-- Memory after a completed operation: only the cell at IP differs, by CIPHER (R76). -/
theorem State.complete_read (s : State) (P : Params) (n : Cell) (o : Option Byte) (b : Bool) (x : Cell) :
    (s.complete P n o b).mem.read x = if x = s.ip then P.cipher (s.mem.read s.ip) else s.mem.read x := by
  rw [State.complete_mem, Memory.read_write]

/-- Memory after ROT or CRZ as a whole: the cipher acts on the value just stored when D = IP (R37, R165). -/
theorem State.storeResult_complete_read (s : State) (P : Params) (r n : Cell) (o : Option Byte) (b : Bool) (x : Cell) :
    ((s.storeResult r).complete P n o b).mem.read x =
      if x = s.ip then P.cipher (if s.ip = s.d then r else s.mem.read s.ip)
      else if x = s.d then r else s.mem.read x := by
  rw [State.complete_read, State.storeResult_read, State.storeResult_read, State.storeResult_ip]

theorem State.complete_mem_wf (s : State) (P : Params) (n : Cell) (o : Option Byte) (b : Bool) (h : s.mem.wf) :
    (s.complete P n o b).mem.wf := by
  rw [State.complete_mem]
  exact Memory.write_wf _ _ _ h

theorem State.storeResult_mem_wf (s : State) (r : Cell) (h : s.mem.wf) : (s.storeResult r).mem.wf := by
  rw [State.storeResult_mem]
  exact Memory.write_wf _ _ _ h

/-- IN when the host offers a value (R101). -/
theorem inputEffect_some (P : Params) (s : State) (x : InputValue) (h : s.inp = some x) :
    inputEffect P s = (s.setA x.value).complete P (nextAddr s.ip) none true := by
  simp [inputEffect, h]

/-- IN when the host offers none (R102). -/
theorem inputEffect_none (P : Params) (s : State) (h : s.inp = none) : inputEffect P s = s.wait := by
  simp [inputEffect, h]

end Sys2Proof.Machine
end

