-- ==== Sys2Proof/Laws/PerInstr.lean ====
section
/-! SUPPORT. A statement about each operation as syntax: the index the encoder uses for it is a row of the default
DECODE that gives it back (spec/30_encoding.md R53). -/

/-- The index that stands for the operation decodes to it. -/
def Sys2Proof.Laws.IndexDecodes.Statement (i : Sys2Proof.Instr) : Prop :=
  Sys2Proof.decodeDefault (Sys2Proof.indexOf i) = i

theorem Sys2Proof.Laws.IndexDecodes.nop : Sys2Proof.Laws.IndexDecodes.Statement .nop := by
  unfold Sys2Proof.Laws.IndexDecodes.Statement; decide
theorem Sys2Proof.Laws.IndexDecodes.rot : Sys2Proof.Laws.IndexDecodes.Statement .rot := by
  unfold Sys2Proof.Laws.IndexDecodes.Statement; decide
theorem Sys2Proof.Laws.IndexDecodes.crz : Sys2Proof.Laws.IndexDecodes.Statement .crz := by
  unfold Sys2Proof.Laws.IndexDecodes.Statement; decide
theorem Sys2Proof.Laws.IndexDecodes.movd : Sys2Proof.Laws.IndexDecodes.Statement .movd := by
  unfold Sys2Proof.Laws.IndexDecodes.Statement; decide
theorem Sys2Proof.Laws.IndexDecodes.input : Sys2Proof.Laws.IndexDecodes.Statement .input := by
  unfold Sys2Proof.Laws.IndexDecodes.Statement; decide
theorem Sys2Proof.Laws.IndexDecodes.output : Sys2Proof.Laws.IndexDecodes.Statement .output := by
  unfold Sys2Proof.Laws.IndexDecodes.Statement; decide
theorem Sys2Proof.Laws.IndexDecodes.jmp : Sys2Proof.Laws.IndexDecodes.Statement .jmp := by
  unfold Sys2Proof.Laws.IndexDecodes.Statement; decide
theorem Sys2Proof.Laws.IndexDecodes.hlt : Sys2Proof.Laws.IndexDecodes.Statement .hlt := by
  unfold Sys2Proof.Laws.IndexDecodes.Statement; decide
end

