-- ==== Sys2Proof/Laws/Step.lean ====
section
/-! SUPPORT. `exec` and `step` are the engine with the default parameters, and the step's two cases. -/

namespace Sys2Proof.Machine

/-- Every operation answers a next state, the one of the parametric engine. -/
theorem exec_eq (i : Instr) (s : State) : exec i s = .next (effect defaults i s) := by
  cases i <;> rfl

/-- Every step answers a next state, the one of the parametric engine. -/
theorem step_eq (s : State) : step s = .next (stepWith defaults s) := by
  by_cases h : s.status = .halted
  · simp [step, stepWith, h]
  · simp [step, stepWith, h, exec_eq, State.fetch]

/-- The status gate (R71). -/
theorem stepWith_of_halted (P : Params) (s : State) (h : s.status = .halted) : stepWith P s = s.idle := by
  simp [stepWith, h]

/-- Past the status gate (R72, R73). -/
theorem stepWith_of_not_halted (P : Params) (s : State) (h : s.status ≠ .halted) :
    stepWith P s = effect P (s.fetchWith P) s := by
  simp [stepWith, h]

end Sys2Proof.Machine
end

