-- ==== Sys2Proof/Tests/Slice0.lean ====
section
/-! SUPPORT. Small tests, their expected results taken from spec/95_test_vectors.md (the vector is named beside each) or
from the spec's tables, and a witness for the hypotheses of each statement that has some. -/

namespace Sys2Proof.Tests

open Sys2Proof.Machine

/-- A state with a few cells, for the single-step vectors of 95_test_vectors.md, section 4. -/
def st (cells : List (Cell × Cell)) (ip a d : Cell) (status : Status) (inputs : List (Option InputValue)) : State where
  mem := Memory.ofCells cells
  ip := ip
  a := a
  d := d
  status := status
  inputs := inputs
  out := none
  inTaken := false

/-- What a vector lists of the state after one step. -/
structure Seen where
  cells : List (Cell × Cell)
  ip : Cell
  a : Cell
  d : Cell
  status : Status
  out : Option Byte
  inTaken : Bool
deriving DecidableEq, Repr

/-- One step, as the vectors show it. -/
def after (s : State) : Option Seen :=
  match step s with
  | .next t => some ⟨t.mem.cells, t.ip, t.a, t.d, t.status, t.out, t.inTaken⟩
  | _ => none

/-! ### WellFormed smoke: an ill-formed term for each check, refused, and the last well-formed one -/

theorem test_index_94_is_ill_formed : indexWellFormed 94 = false ∧ indexWellFormed 93 = true := by decide
theorem test_cell_59049_is_ill_formed : cellWellFormed 59049 = false ∧ cellWellFormed 59048 = true := by decide
theorem test_input_300_is_ill_formed :
    inputWellFormed 300 = false ∧ inputWellFormed 255 = true ∧ inputWellFormed 59048 = true ∧
    inputWellFormed 59047 = false := by decide
theorem test_every_operation_is_well_formed (i : Instr) : i.wellFormed = true := by cases i <;> rfl

/-! ### Decode: each operation from a cell written out by R51 and R53 (95_test_vectors.md, section 2) -/

/-- 97 at address 1: (97 + 1) mod 94 = 4. -/
theorem test_decode_jmp : decodeCell 97 1 = .jmp := by decide
/-- 99 at address 0: 99 mod 94 = 5. -/
theorem test_decode_output : decodeCell 99 0 = .output := by decide
/-- 117 at address 0: 117 mod 94 = 23. -/
theorem test_decode_input : decodeCell 117 0 = .input := by decide
/-- 126 at address 7: 133 mod 94 = 39. -/
theorem test_decode_rot : decodeCell 126 7 = .rot := by decide
/-- 134 at address 0: 134 mod 94 = 40. -/
theorem test_decode_movd : decodeCell 134 0 = .movd := by decide
/-- 60 at address 2: 62. -/
theorem test_decode_crz : decodeCell 60 2 = .crz := by decide
/-- 52 at address 59048: 59100 mod 94 = 68; and an unassigned index, 80. -/
theorem test_decode_nop : decodeCell 52 59048 = .nop ∧ decodeCell 81 93 = .nop := by decide
/-- 81 at address 94: 175 mod 94 = 81. -/
theorem test_decode_hlt : decodeCell 81 94 = .hlt := by decide
/-- The largest sum, unreduced: 118096 mod 94 = 32. -/
theorem test_decode_largest_sum : decodeIndex 59048 59048 = 32 := by decide
/-- The `asm` table of 95_test_vectors.md at addresses 0, 9 and 59048. -/
theorem test_encode :
    encode .jmp 0 = 98 ∧ encode .hlt 9 = 72 ∧ encode .nop 59048 = 52 ∧ encode .rot 7 = 126 ∧ encode .movd 7 = 33 ∧
    encode .crz 40 = 116 ∧ encode .input 59048 = 101 ∧ encode .output 9 = 90 := by decide
theorem test_table_words :
    decodeTableWord 8 39 = some .rot ∧ decodeTableWord 8 23 = some .input ∧ decodeTableWord 8 93 = some .nop ∧
    decodeTableWord 8 94 = none ∧ decodeTableWord 32 (31 + 2 ^ 31) = some .nop := by decide
theorem test_raw_patterns_refused_by_name :
    decodeNat 94 = .error .notAnIndex ∧ decodeBits 59049 0 = .error .notACell ∧
    decodeBits 0 59049 = .error .notAnAddress ∧ decodeBits 98 0 = .ok .jmp := by decide

/-! ### Functions (95_test_vectors.md, section 3) -/

theorem test_rotate :
    rotate .right 1 = 19683 ∧ rotate .right 72 = 24 ∧ rotate .right 12345 = 4115 ∧ rotate .right 59047 = 39365 ∧
    rotate .left 4115 = 12345 := by decide
theorem test_crazy :
    crazy crzTritDefault 72 12345 = 32056 ∧ crazy crzTritDefault 12345 72 = 19756 ∧
    crazy crzTritDefault 0 62 = 29555 ∧ crazy crzTritDefault 7710 5190 = 24250 := by decide
theorem test_cipher :
    cipherDefault 33 = 53 ∧ cipherDefault 68 = 33 ∧ cipherDefault 97 = 46 ∧ cipherDefault 126 = 64 ∧
    cipherDefault 127 = 127 ∧ cipherDefault 32 = 32 ∧ cipherDefault 59048 = 59048 := by decide
/-- XLAT2 as the ASCII line of R77: its 94 characters. -/
theorem test_cipher_table_is_the_ascii_line :
    cipherTable.map (fun c => Char.ofNat c.val) =
      "5z]&gqtyfr$(we4".toList ++ [Char.ofNat 123] ++
      "WP)H-Zn,[%\\3dL+Q;>U!pJS72FhOA1CB6v^=I_0/8|jsb9m<.TVac`uY*MK'X~xDl".toList ++ [Char.ofNat 125] ++
      "REokN:#?G\"i@".toList := by decide
/-- PERM as the ASCII line of R55. -/
theorem test_perm_is_the_ascii_line :
    perm.map Char.ofNat =
      "+b(29e*j1VMEKLyC".toList ++ [Char.ofNat 125] ++
      ")8&m#~W>qxdRp0wkrUo[D7,XTcA\"lI.v%".toList ++ [Char.ofNat 123] ++
      "gJh4G\\-=O@5`_3i<?Z';FNQuY]szf$!BS/|t:Pn6^Ha".toList := by decide

/-! ### Single steps (95_test_vectors.md, section 4), two for each operation -/

/-- S2. -/
theorem test_nop_unassigned :
    after (st [(0, 86)] 0 0 0 .running []) = some ⟨[(0, 95)], 1, 0, 0, .running, none, false⟩ := by decide
/-- S5: the top of memory, D not advanced. -/
theorem test_nop_wraps :
    after (st [(59048, 59048)] 59048 7 9 .running []) =
      some ⟨[(59048, 59048)], 0, 7, 9, .running, none, false⟩ := by decide
/-- S6. -/
theorem test_rot :
    after (st [(1, 38), (40, 12345)] 1 0 40 .running []) =
      some ⟨[(1, 113), (40, 4115)], 2, 4115, 40, .running, none, false⟩ := by decide
/-- S7: D = IP. -/
theorem test_rot_of_itself :
    after (st [(0, 39)] 0 0 0 .running []) = some ⟨[(0, 13)], 1, 13, 0, .running, none, false⟩ := by decide
/-- S12: operand order. -/
theorem test_crz :
    after (st [(2, 60), (40, 72)] 2 12345 40 .running []) =
      some ⟨[(2, 51), (40, 19756)], 3, 19756, 40, .running, none, false⟩ := by decide
/-- S11: D = IP. -/
theorem test_crz_of_itself :
    after (st [(0, 62)] 0 0 0 .running []) = some ⟨[(0, 29555)], 1, 29555, 0, .running, none, false⟩ := by decide
/-- S14: D gets the unciphered value. -/
theorem test_movd_of_itself :
    after (st [(0, 40)] 0 0 0 .running []) = some ⟨[(0, 121)], 1, 0, 40, .running, none, false⟩ := by decide
/-- S15. -/
theorem test_movd :
    after (st [(3, 37), (500, 59048)] 3 11 500 .running []) =
      some ⟨[(3, 103), (500, 59048)], 4, 11, 59048, .running, none, false⟩ := by decide
/-- S22: end of input is stored. -/
theorem test_input_end_of_input :
    after (st [(0, 117)] 0 0 0 .waitingForInput [some .eof]) =
      some ⟨[(0, 111)], 1, 59048, 0, .running, none, true⟩ := by decide
/-- S17: no cipher, no advance. -/
theorem test_input_waits :
    after (st [(0, 117)] 0 0 0 .running [none]) =
      some ⟨[(0, 117)], 0, 0, 0, .waitingForInput, none, false⟩ := by decide
/-- S24. -/
theorem test_output :
    after (st [(3, 96)] 3 59048 0 .running []) =
      some ⟨[(3, 60)], 4, 59048, 0, .running, some 168, false⟩ := by decide
/-- S26: the offered value is ignored. -/
theorem test_output_ignores_input :
    after (st [(3, 96)] 3 65 0 .running [some (.byte 66)]) =
      some ⟨[(3, 60)], 4, 65, 0, .running, some 65, false⟩ := by decide
/-- S27. -/
theorem test_jmp :
    after (st [(1, 97)] 1 0 40 .running []) = some ⟨[(1, 46)], 40, 0, 40, .running, none, false⟩ := by decide
/-- S38: a large cell value. -/
theorem test_jmp_large_cell :
    after (st [(10, 59026)] 10 0 3 .running []) = some ⟨[(10, 59026)], 3, 0, 3, .running, none, false⟩ := by decide
/-- S31. -/
theorem test_hlt :
    after (st [(2, 79)] 2 1 2 .running []) = some ⟨[(2, 79)], 2, 1, 2, .halted, none, false⟩ := by decide
/-- S34: HALTED wins over any cell and any input. -/
theorem test_halted_step :
    after (st [(2, 98)] 2 0 7 .halted [some (.byte 65)]) =
      some ⟨[(2, 98)], 2, 0, 7, .halted, none, false⟩ := by decide
/-- A row of the table placed at reset is run by the next step: OUT, cell 99 by the `asm` table. -/
theorem test_placed_word_runs :
    after (State.reset.withFetchWord 8 5) = some ⟨[(0, 86)], 1, 0, 0, .running, some 0, false⟩ := by decide
/-- P1 of 95_test_vectors.md, the first two steps, under the host's protocol: a wait, then the byte 72 is taken. -/
theorem test_protocol_reads_a_byte :
    (Session.turns defaults 2 ⟨⟨[72], false⟩, st [(0, 117), (1, 98), (2, 79)] 0 0 0 .running [], [], []⟩).taken =
      [.byte 72] := by decide

/-! ### Witnesses: for each statement with hypotheses, states and operands that meet them, one for each clause -/

/-- An operation's cell at its address, operand cell 40 apart from it. -/
def at1 (v : Cell) (status : Status) (inputs : List (Option InputValue)) : State :=
  st [(1, v), (40, 12345)] 1 7 40 status inputs

/-- The same with the operand cell at IP. -/
def self1 (v : Cell) (status : Status) : State := st [(1, v)] 1 7 1 status []

theorem witness_EncodeThenDecodeGivesTheOperation :
    33 ≤ (126 : Cell).val ∧ (126 : Cell).val ≤ 126 ∧ decodeIndex 126 7 = indexOf .rot ∧ (126 : Cell) = encode .rot 7 ∧
    33 ≤ (33 : Cell).val ∧ decodeIndex 33 7 ≠ indexOf .rot := by decide
theorem witness_PlacedTableRowIsRunByTheNextStep : 7 ≤ 7 ∧ 93 % 128 < 94 := by decide
theorem witness_DecodeIndexMovesWithTheAddress :
    (59047 : Cell) ≠ 59048 ∧ ((94 : Cell).val + (0 : Cell).val) % 94 = ((0 : Cell).val + (0 : Cell).val) % 94 := by decide
theorem witness_DefaultDecodeTable :
    (0 : Index) ∉ ([4, 5, 23, 39, 40, 62, 68, 81] : List Index) ∧
    (93 : Index) ∉ ([4, 5, 23, 39, 40, 62, 68, 81] : List Index) := by decide
theorem witness_CanonicalMemoriesThatReadAlikeAreEqual :
    (Memory.ofCells [(59048, 1), (0, 2)]).wf ∧ (Memory.ofCells [(0, 2), (59048, 1)]).wf ∧
    ∀ x, (Memory.ofCells [(59048, 1), (0, 2)]).read x = (Memory.ofCells [(0, 2), (59048, 1)]).read x :=
  ⟨Memory.ofCells_wf _, Memory.ofCells_wf _, fun _ => rfl⟩
theorem witness_EveryStepKeepsMemoryCanonical :
    ∃ t, (at1 38 .running []).mem.wf ∧ step (at1 38 .running []) = .next t :=
  ⟨_, Memory.ofCells_wf _, step_eq _⟩
theorem witness_StepWritesOnlyTheCellsAtIpAndD :
    ((0 : Cell) ≠ (at1 38 .running []).ip ∧ (at1 38 .running []).fetchWith defaults = .rot ∧
      (0 : Cell) ≠ (at1 38 .running []).d) ∧
    ((40 : Cell) ≠ (at1 67 .running []).ip ∧ (at1 67 .running []).fetchWith defaults = .nop ∧
      (40 : Cell) = (at1 67 .running []).d) := by decide
theorem witness_StepReadsOnlyTheCellsAtIpAndD :
    ((at1 38 .running []).status ≠ .halted ∧ (at1 38 .running []).fetchWith defaults = .rot ∧
      ((at1 38 .running []).mem.write 0 9).read 1 = (at1 38 .running []).mem.read 1 ∧
      ((at1 38 .running []).mem.write 0 9).read 40 = (at1 38 .running []).mem.read 40) ∧
    (at1 38 .halted []).status = .halted := by decide
theorem witness_FetchSeesTheLastWrite :
    ((st [(39, 0), (40, 5)] 39 0 40 .running []).fetchWith defaults = .rot ∧
      (40 : Cell).val = ((39 : Cell).val + 1) % 59049) ∧
    ((st [(0, 5), (59048, 46)] 59048 0 0 .running []).fetchWith defaults = .crz ∧
      (0 : Cell).val = ((59048 : Cell).val + 1) % 59049) ∧
    ((self1 97 .running).fetchWith defaults = .jmp ∧ (self1 97 .running).d = (self1 97 .running).ip ∧
      (self1 97 .running).status ≠ .halted) := by decide
theorem witness_trit_positions : 0 < 9 ∧ 8 < 9 ∧ 0 < 10 ∧ 9 < 10 := by decide
theorem witness_DefaultCipherPermutesThePrintableRange :
    33 ≤ (33 : Cell).val ∧ (126 : Cell).val ≤ 126 ∧ (32 : Cell).val < 33 ∧ 126 < (127 : Cell).val := by decide
theorem witness_InputStoresTheOfferedValue :
    (at1 116 .running [some .eof]).inp = some .eof ∧
    (at1 116 .waitingForInput [some (.byte 255)]).inp = some (.byte 255) := by decide
theorem witness_InputWithoutAValueWaits :
    (at1 116 .running []).inp = none ∧ (at1 116 .waitingForInput [none]).status = .waitingForInput ∧
    (at1 116 .waitingForInput [none]).fetchWith defaults = .input ∧ (at1 116 .waitingForInput [none]).inp = none := by
  decide
theorem witness_OperandAtIpIsStoredBeforeTheCipher : (self1 38 .running).d = (self1 38 .running).ip := by decide
theorem witness_StepRunsTheDecodedInstruction :
    (at1 80 .running []).status ≠ .halted ∧
    decodeCell ((at1 80 .running []).mem.read (at1 80 .running []).ip) (at1 80 .running []).ip = .hlt := by decide
theorem witness_HaltedStepDoesNothing : (at1 38 .halted []).status = .halted := by decide
theorem witness_StatusMachine :
    (at1 38 .halted []).status = .halted ∧
    ((at1 80 .waitingForInput []).status ≠ .halted ∧ (at1 80 .waitingForInput []).fetchWith defaults = .hlt) ∧
    ((at1 116 .running []).status ≠ .halted ∧ (at1 116 .running []).fetchWith defaults = .input ∧
      (at1 116 .running []).inp = none) ∧
    ((at1 116 .running [some .eof]).status ≠ .halted ∧
      completes ((at1 116 .running [some .eof]).fetchWith defaults) (at1 116 .running [some .eof]) = true) := by decide
theorem witness_CompletedStepAdvancesOrJumps :
    ((at1 97 .running []).status ≠ .halted ∧
      completes ((at1 97 .running []).fetchWith defaults) (at1 97 .running []) = true ∧
      (at1 97 .running []).fetchWith defaults = .jmp) ∧
    ((st [(59048, 52)] 59048 0 0 .running []).fetchWith defaults = .nop ∧
      completes ((st [(59048, 52)] 59048 0 0 .running []).fetchWith defaults) (st [(59048, 52)] 59048 0 0 .running []) =
        true) := by decide
theorem witness_CompletedStepCiphersTheExecutedCell :
    ((self1 38 .running).status ≠ .halted ∧ (self1 38 .running).d = (self1 38 .running).ip ∧
      (self1 38 .running).fetchWith defaults = .rot ∧
      completes ((self1 38 .running).fetchWith defaults) (self1 38 .running) = true) ∧
    ((self1 61 .running).d = (self1 61 .running).ip ∧ (self1 61 .running).fetchWith defaults = .crz ∧
      completes ((self1 61 .running).fetchWith defaults) (self1 61 .running) = true) ∧
    ((at1 97 .running []).d ≠ (at1 97 .running []).ip ∧
      completes ((at1 97 .running []).fetchWith defaults) (at1 97 .running []) = true) := by decide
theorem witness_WhoWritesAndReadsA :
    ((at1 116 .running [some .eof]).status ≠ .halted ∧ (at1 116 .running [some .eof]).fetchWith defaults = .input ∧
      (at1 116 .running [some .eof]).inp = some .eof) ∧
    ((at1 38 .running []).fetchWith defaults = .rot ∧ (at1 38 .running []).d ≠ (at1 38 .running []).ip) ∧
    ((at1 61 .running []).fetchWith defaults = .crz ∧ (self1 61 .running).d = (self1 61 .running).ip) ∧
    (at1 98 .running []).fetchWith defaults = .output ∧
    ((at1 116 .running []).fetchWith defaults = .input ∧ (at1 116 .running []).inp = none) ∧
    (at1 97 .running []).fetchWith defaults = .jmp := by decide
theorem witness_WhoWritesAndReadsD :
    ((at1 39 .running []).status ≠ .halted ∧ (at1 39 .running []).fetchWith defaults = .movd) ∧
    (at1 98 .running []).fetchWith defaults = .output := by decide
theorem witness_OnlyInTakesInput :
    (at1 116 .halted [some .eof]).status = .halted ∧ (at1 98 .running [some .eof]).fetchWith defaults ≠ .input := by
  decide
theorem witness_HaltedIsForEver : (at1 116 .halted [some .eof]).status = .halted := by decide
theorem witness_WaitingIsIdempotentUntilInput :
    (at1 116 .running [none, some .eof]).status ≠ .halted ∧
    (at1 116 .running [none, some .eof]).fetchWith defaults = .input ∧
    (∀ j, j < 1 → (at1 116 .running [none, some .eof]).inputs.getD j none = none) ∧
    (at1 116 .running [none, some .eof]).inputs.getD 1 none = some .eof := by decide
theorem witness_RunsDependOnlyOnEngineAndInputs :
    (at1 116 .running [none, some .eof]).engine = (at1 116 .running [none, none]).engine ∧
    ∀ j, j < 1 → (at1 116 .running [none, some .eof]).inputs.getD j none =
      (at1 116 .running [none, none]).inputs.getD j none := by decide
theorem witness_EveryStepKeepsWaitingMeansInput :
    ∃ t, (at1 116 .waitingForInput []).status = .waitingForInput ∧
      WaitingMeansInput defaults (at1 116 .waitingForInput []) ∧ step (at1 116 .waitingForInput []) = .next t :=
  ⟨_, rfl, fun _ => by decide, step_eq _⟩
theorem witness_ReachableStatesWaitOnlyAtInput :
    Reachable defaults (stepWith defaults ((State.load (fun _ => 117) []).setInputs [some .eof])) :=
  .step _ (.offer _ _ (.load _ _))
theorem witness_LoadGivesTheResetStateOfItsImage : (23 : Index).val = ((fun _ => 117 : Cell → Cell) 0).val % 94 := by
  decide
theorem witness_ValueOfferedUnderTheProtocolIsTaken :
    WaitingMeansInput defaults (at1 116 .waitingForInput []) ∧
    (⟨[255], false⟩ : Caller).offer (at1 116 .waitingForInput []).status = some (.byte 255) ∧
    (⟨[], true⟩ : Caller).offer (at1 116 .waitingForInput []).status = some .eof :=
  ⟨fun _ => by decide, by decide, by decide⟩
theorem witness_ProtocolTakesInputsInArrivalOrder :
    (Session.turns defaults 2 ⟨⟨[], true⟩, at1 116 .running [], [], []⟩).taken = [.eof] := by decide
/-- The codes of R17's table, RUNNING 00, WAITING_FOR_INPUT 01, HALTED 10. -/
theorem test_status_codes :
    [Status.running, .waitingForInput, .halted].map Status.code = [0b00, 0b01, 0b10] := by decide
/-- R123's 0xE6A8 for 59048, and the two values 255 and 256 around a byte (R19). -/
theorem test_cell_patterns :
    cellBits 59048 = 0xE6A8 ∧ cellBits 255 = 0x00FF ∧ cellBits 256 = 0x0100 ∧ cellBits 0 = 0 := by decide
theorem witness_PortEncodingsAreExact :
    59049 ≤ (59049 : BitVec 16).toNat ∧ 256 ≤ (256 : BitVec 16).toNat ∧ (256 : BitVec 16).toNat ≠ 59048 ∧
    (59047 : BitVec 16).toNat ≠ 59048 := by decide
theorem witness_LoadOverridesAStepRequest :
    (⟨true, fun _ => 0, true, false, 0⟩ : PortIn).load = true ∧
    ((⟨false, fun _ => 0, true, true, 59048⟩ : PortIn).stepReq = true ∧
      inputOfPorts true 59048 = .ok (some .eof)) ∧
    (⟨false, fun _ => 0, false, false, 0⟩ : PortIn).stepReq = false := by
  refine ⟨rfl, ⟨rfl, by decide⟩, rfl⟩

end Sys2Proof.Tests
end

namespace Sys2Proof.Machine

/-! ### Ternary digits and the number they make (R8) -/

/-- The n lowest trits of a cell value make its remainder modulo 3^n. -/
theorem tritSum_trit (v : Cell) (n : Nat) : tritSum (trit v) n = v.val % 3 ^ n := by
  induction n with
  | zero => simp [tritSum, Nat.mod_one]
  | succ n ih =>
    have hdigit : (trit v n).val = v.val / 3 ^ n % 3 := rfl
    rw [tritSum, ih, hdigit, Nat.mod_pow_succ, Nat.mul_comm]

/-- Digit i of the number that n trits make is trit i: the higher trits add multiples of 3^(i+1), the lower ones stay
below 3^i. -/
theorem tritSum_div_mod (f : Nat → Trit) {i n : Nat} (hi : i < n) : tritSum f n / 3 ^ i % 3 = (f i).val := by
  induction n with
  | zero => omega
  | succ n ih =>
    rw [tritSum]
    obtain hlt | rfl := Nat.lt_succ_iff_lt_or_eq.1 hi
    · have hpow : 3 ^ n = 3 * 3 ^ (n - (i + 1)) * 3 ^ i := by
        rw [mul_right_comm, ← pow_succ', ← pow_add, Nat.add_sub_cancel' hlt]
      have hhigh : (f n).val * 3 ^ n = (3 * ((f n).val * 3 ^ (n - (i + 1)))) * 3 ^ i := by rw [hpow]; ring
      rw [hhigh, Nat.add_mul_div_right _ _ (Nat.pow_pos (by decide)), Nat.add_mul_mod_self_left, ih hlt]
    · rw [Nat.add_mul_div_right _ _ (Nat.pow_pos (by decide)), Nat.div_eq_of_lt (tritSum_lt f i), Nat.zero_add,
        Nat.mod_eq_of_lt (f i).isLt]

/-- A cell value is the number its ten trits make. -/
@[simp] theorem cellOfTrits_trit (v : Cell) : cellOfTrits (trit v) = v :=
  Fin.ext ((tritSum_trit v 10).trans (Nat.mod_eq_of_lt v.isLt))

/-- Reading a trit of the cell made of ten trits. -/
theorem trit_cellOfTrits (f : Nat → Trit) {i : Nat} (hi : i < 10) : trit (cellOfTrits f) i = f i :=
  Fin.ext (tritSum_div_mod f hi)

/-- Settles O19: the two directions are `cellOfTrits_trit` and `trit_cellOfTrits`. -/
theorem tenTritsAreACellValue : Obligations.TenTritsAreACellValue :=
  ⟨cellOfTrits_trit, fun f _ hi => trit_cellOfTrits f hi⟩

/-! ### What a step depends on and what it does to the host's arguments (R6, R10, R70) -/

/-- The argument of the next step is the first entry of the list, None past its end. -/
theorem State.inp_eq_getD (s : State) : s.inp = s.inputs.getD 0 none := by
  unfold State.inp
  cases s.inputs <;> rfl

/-- Every operation uses up one entry of the arguments, also where it takes no value. -/
theorem effect_inputs (P : Params) (i : Instr) (s : State) : (effect P i s).inputs = s.inputs.tail := by
  cases i with
  | input =>
    rw [effect]
    cases hx : s.inp with
    | none => rw [inputEffect_none P s hx, State.wait_inputs]
    | some x => rw [inputEffect_some P s x hx, State.complete_inputs, State.setA_inputs]
  | _ => rfl

/-- Every step uses up one entry of the arguments, in every status. -/
@[simp] theorem stepWith_inputs (P : Params) (s : State) : (stepWith P s).inputs = s.inputs.tail := by
  by_cases h : s.status = .halted
  · rw [stepWith_of_halted P s h, State.idle_inputs]
  · rw [stepWith_of_not_halted P s h, effect_inputs]

/-- An operation sees nothing of the state but the engine and its own argument: IN, which alone reads the argument, is
split on it, and the other operations read the five components only. -/
theorem effect_congr (P : Params) (i : Instr) {s s' : State} (he : s.engine = s'.engine) (hi : s.inp = s'.inp) :
    (effect P i s).engine = (effect P i s').engine ∧ (effect P i s).out = (effect P i s').out := by
  obtain ⟨mem, ip, a, d, status, inputs, out, taken⟩ := s
  obtain ⟨mem', ip', a', d', status', inputs', out', taken'⟩ := s'
  obtain ⟨rfl, rfl, rfl, rfl, rfl⟩ := (State.engine_eq_iff _ _).1 he
  cases i with
  | input =>
    simp only [effect]
    cases hx : State.inp ⟨mem, ip, a, d, status, inputs, out, taken⟩ with
    | none =>
      rw [inputEffect_none P _ hx, inputEffect_none P _ (hi.symm.trans hx)]
      exact ⟨rfl, rfl⟩
    | some x =>
      rw [inputEffect_some P _ x hx, inputEffect_some P _ x (hi.symm.trans hx)]
      exact ⟨rfl, rfl⟩
  | _ => exact ⟨rfl, rfl⟩

/-- The operation fetched depends on the engine alone (R73). -/
theorem State.fetchWith_congr (P : Params) {s s' : State} (he : s.engine = s'.engine) :
    s.fetchWith P = s'.fetchWith P := by
  obtain ⟨hmem, hip, -, -, -⟩ := (State.engine_eq_iff s s').1 he
  simp only [State.fetchWith, hmem, hip]

/-- A step sees nothing of the state but the engine and its own argument (R6, R10). -/
theorem stepWith_congr (P : Params) {s s' : State} (he : s.engine = s'.engine) (hi : s.inp = s'.inp) :
    (stepWith P s).engine = (stepWith P s').engine ∧ (stepWith P s).out = (stepWith P s').out := by
  have hstatus : s.status = s'.status := congrArg Engine.status he
  by_cases h : s.status = .halted
  · rw [stepWith_of_halted P s h, stepWith_of_halted P s' (hstatus ▸ h)]
    exact ⟨he, rfl⟩
  · rw [stepWith_of_not_halted P s h, stepWith_of_not_halted P s' (hstatus ▸ h), State.fetchWith_congr P he]
    exact effect_congr P _ he hi

/-- After a step, entry j of the arguments is what entry j + 1 was. -/
theorem stepWith_inputs_getD (P : Params) (s : State) (j : Nat) :
    (stepWith P s).inputs.getD j none = s.inputs.getD (j + 1) none := by
  rw [stepWith_inputs]
  cases s.inputs <;> rfl

/-- Settles O47, by induction on the number of steps: one step keeps the engines equal (`stepWith_congr`) and moves the
arguments up by one (`stepWith_inputs_getD`). -/
theorem runsDependOnlyOnEngineAndInputs : Obligations.RunsDependOnlyOnEngineAndInputs := by
  intro P k
  induction k with
  | zero => exact fun s s' he _ => ⟨he, rfl⟩
  | succ k ih =>
    intro s s' he hin
    have hinp : s.inp = s'.inp := by
      simpa only [State.inp_eq_getD] using hin 0 k.succ_pos
    obtain ⟨hengine, hout⟩ := stepWith_congr P he hinp
    have hrest : ∀ j, j < k → (stepWith P s).inputs.getD j none = (stepWith P s').inputs.getD j none := by
      intro j hj
      simpa only [stepWith_inputs_getD] using hin (j + 1) (Nat.succ_lt_succ hj)
    obtain ⟨hrun, houts⟩ := ih (stepWith P s) (stepWith P s') hengine hrest
    exact ⟨hrun, by rw [outputsWith, outputsWith, hout, houts]⟩

end Sys2Proof.Machine

namespace Sys2Proof.Machine

/-! ### Canonical memories and what they read as (R11, log entry 1) -/

/-- In a canonical list the entries are exactly the addresses that do not read as `Memory.unlisted`, with what they read
as: strictly rising addresses leave one entry for each. -/
theorem mem_iff_lookupCell {l : List (Cell × Cell)} (hrise : l.Pairwise fun x y => x.1 < y.1)
    (hlisted : ∀ e ∈ l, e.2 ≠ Memory.unlisted) (e : Cell × Cell) :
    e ∈ l ↔ lookupCell l e.1 = e.2 ∧ e.2 ≠ Memory.unlisted := by
  induction l with
  | nil => simpa [lookupCell] using fun h => h.symm
  | cons f l ih =>
    rw [List.pairwise_cons] at hrise
    rw [List.forall_mem_cons] at hlisted
    obtain ⟨x, w⟩ := f
    obtain ⟨a, v⟩ := e
    by_cases hx : x = a
    · subst hx
      have hfresh : (x, v) ∉ l := fun h => lt_irrefl x (hrise.1 _ h)
      simp only [List.mem_cons, hfresh, or_false, Prod.mk.injEq, true_and, lookupCell, if_true]
      constructor
      · rintro rfl
        exact ⟨rfl, hlisted.1⟩
      · exact fun h => h.1.symm
    · simpa [lookupCell, hx, Ne.symm hx] using ih hrise.2 hlisted.2

/-- The entries of a canonical memory, in terms of its reads. -/
theorem Memory.mem_cells_iff {m : Memory} (h : m.wf) (a v : Cell) :
    (a, v) ∈ m.cells ↔ m.read a = v ∧ v ≠ Memory.unlisted :=
  mem_iff_lookupCell h.1 h.2 (a, v)

theorem nodup_of_rising {l : List (Cell × Cell)} (h : l.Pairwise fun x y => x.1 < y.1) : l.Nodup :=
  h.imp fun hlt heq => hlt.ne (congrArg Prod.fst heq)

/-- Two lists of entries with rising addresses and the same entries are the same list. -/
theorem eq_of_rising_of_mem_iff {l l' : List (Cell × Cell)} (hl : l.Pairwise fun x y => x.1 < y.1)
    (hl' : l'.Pairwise fun x y => x.1 < y.1) (hmem : ∀ e, e ∈ l ↔ e ∈ l') : l = l' := by
  have hperm : l.Perm l' := (List.perm_ext_iff_of_nodup (nodup_of_rising hl) (nodup_of_rising hl')).2 hmem
  exact hperm.eq_of_pairwise (fun _ _ _ _ hlt hgt => absurd hgt hlt.asymm) hl hl'

/-- Extensionality of canonical memories. -/
theorem Memory.eq_of_read_eq {m m' : Memory} (hm : m.wf) (hm' : m'.wf) (hread : ∀ x, m.read x = m'.read x) :
    m = m' := by
  have hcells : m.cells = m'.cells := eq_of_rising_of_mem_iff hm.1 hm'.1 fun ⟨a, v⟩ => by
    rw [Memory.mem_cells_iff hm, Memory.mem_cells_iff hm', hread]
  exact congrArg Memory.mk hcells

/-- Every cell of the memory of an image reads as the image has it (R21). -/
@[simp] theorem Memory.read_ofImage (img : Cell → Cell) (x : Cell) : (Memory.ofImage img).read x = img x := by
  have hcells := Memory.mem_cells_iff (Memory.ofImage_wf img) x
  have hentries := fun v => mem_imageEntries 59049 img (x, v)
  by_cases himg : img x = Memory.unlisted
  · by_contra hne
    exact hne ((hentries _).1 ((hcells _).2 ⟨rfl, fun h => hne (h.trans himg.symm)⟩)).1
  · exact ((hcells _).1 ((hentries _).2 ⟨rfl, himg⟩)).1

/-- The memory that lists no cell is the memory of the image of zeros (log entry 2). -/
theorem Memory.ofImage_zero : Memory.ofImage (fun _ => 0) = ⟨[]⟩ :=
  Memory.eq_of_read_eq (Memory.ofImage_wf _) reset_mem_wf fun x => Memory.read_ofImage _ x

/-! ### The step, one operation at a time -/

/-- `step` answers exactly the next state of the engine with the default parameters. -/
theorem step_eq_next_iff (s t : State) : step s = .next t ↔ stepWith defaults s = t := by
  rw [step_eq, Host.Outcome.next.injEq]

/-- Past the status gate the step is the effect of the operation fetched, here named. -/
theorem stepWith_of_fetch {P : Params} {s : State} {i : Instr} (hs : s.status ≠ .halted) (hi : s.fetchWith P = i) :
    stepWith P s = effect P i s := by
  rw [stepWith_of_not_halted P s hs, hi]

/-- An operation that does not complete ends the step early: HLT, or IN without a value (R75). -/
theorem completes_eq_false_iff (i : Instr) (s : State) :
    completes i s = false ↔ i = .hlt ∨ i = .input ∧ s.inp = none := by
  cases i <;> simp [completes]

/-- The status an operation ends in (R75, R79). -/
theorem effect_status (P : Params) (i : Instr) (s : State) :
    (effect P i s).status =
      if completes i s then .running else if i = .hlt then .halted else .waitingForInput := by
  cases i with
  | input =>
    rw [effect]
    cases hx : s.inp with
    | none => simp [inputEffect_none P s hx, completes, hx]
    | some x => simp [inputEffect_some P s x hx, completes, hx]
  | _ => rfl

/-- Every operation keeps memory canonical: what it does to memory is at most `State.storeResult`, then
`State.complete`. -/
theorem effect_mem_wf (P : Params) (i : Instr) (s : State) (h : s.mem.wf) : (effect P i s).mem.wf := by
  cases i with
  | nop => exact s.complete_mem_wf P _ _ _ h
  | rot => exact State.complete_mem_wf _ P _ _ _ (s.storeResult_mem_wf _ h)
  | crz => exact State.complete_mem_wf _ P _ _ _ (s.storeResult_mem_wf _ h)
  | movd => exact (s.setD s.operand).complete_mem_wf P _ _ _ h
  | input =>
    rw [effect]
    cases hx : s.inp with
    | none => rwa [inputEffect_none P s hx, State.wait_mem]
    | some x =>
      rw [inputEffect_some P s x hx]
      exact (s.setA x.value).complete_mem_wf P _ _ _ h
  | output => exact s.complete_mem_wf P _ _ _ h
  | jmp => exact s.complete_mem_wf P _ _ _ h
  | hlt => exact h

/-- Every step keeps memory canonical. -/
theorem stepWith_mem_wf (P : Params) (s : State) (h : s.mem.wf) : (stepWith P s).mem.wf := by
  by_cases hs : s.status = .halted
  · rwa [stepWith_of_halted P s hs, State.idle_mem]
  · rw [stepWith_of_not_halted P s hs]
    exact effect_mem_wf P _ s h

/-- A step that ends in WAITING_FOR_INPUT is one that executed IN without a value, and so is `State.wait` (R102). -/
theorem stepWith_of_status_waiting {P : Params} {s : State} (h : (stepWith P s).status = .waitingForInput)
    (hs : s.status ≠ .halted) : s.fetchWith P = .input ∧ stepWith P s = s.wait := by
  rw [stepWith_of_not_halted P s hs] at h ⊢
  have hstop : completes (s.fetchWith P) s = false := by
    by_contra hc
    rw [effect_status, if_pos (Bool.eq_true_of_not_eq_false hc)] at h
    cases h
  obtain hhlt | ⟨hin, hinp⟩ := (completes_eq_false_iff _ s).1 hstop
  · simp [effect_status, hhlt, completes] at h
  · exact ⟨hin, by rw [hin, effect, inputEffect_none P s hinp]⟩

/-- Every step keeps R18's invariant: a step that ends waiting has left memory and IP alone, so that IN is fetched
again; a step while HALTED does not wait. -/
theorem stepWith_waitingMeansInput (P : Params) (s : State) : WaitingMeansInput P (stepWith P s) := by
  intro hwait
  by_cases hs : s.status = .halted
  · rw [stepWith_of_halted P s hs, State.idle_status, hs] at hwait
    cases hwait
  · obtain ⟨hin, hstep⟩ := stepWith_of_status_waiting hwait hs
    rw [hstep]
    exact hin

/-- A state that is not waiting meets R18's invariant. -/
theorem waitingMeansInput_of_status_ne (P : Params) {s : State} (h : s.status ≠ .waitingForInput) :
    WaitingMeansInput P s :=
  fun hwait => absurd hwait h

/-- A load leaves the engine RUNNING, which is not waiting. -/
theorem load_waitingMeansInput (P : Params) (img : Cell → Cell) (l : List (Option InputValue)) :
    WaitingMeansInput P (State.load img l) :=
  waitingMeansInput_of_status_ne P (by simp)

/-! ### Who writes A and D, and what depends on them (R14, R15) -/

/-- Of the operations only ROT, CRZ and IN with a value write A. -/
theorem effect_a (P : Params) {i : Instr} {s : State} (hrot : i ≠ .rot) (hcrz : i ≠ .crz)
    (hin : i ≠ .input ∨ s.inp = none) : (effect P i s).a = s.a := by
  cases i with
  | rot => exact absurd rfl hrot
  | crz => exact absurd rfl hcrz
  | input => rw [effect, inputEffect_none P s (hin.resolve_left fun h => h rfl), State.wait_a]
  | _ => rfl

/-- Of the operations only MOVD writes D. -/
theorem effect_d (P : Params) {i : Instr} (s : State) (hmovd : i ≠ .movd) : (effect P i s).d = s.d := by
  cases i with
  | movd => exact absurd rfl hmovd
  | input =>
    rw [effect]
    cases hx : s.inp with
    | none => rw [inputEffect_none P s hx, State.wait_d]
    | some x => rw [inputEffect_some P s x hx, State.complete_d, State.setA_d]
  | _ => rfl

/-- Of the operations only OUT and CRZ read A: with another A the others end in the same state but for A. -/
theorem effect_setA (P : Params) {i : Instr} (s : State) (v : Cell) (hout : i ≠ .output) (hcrz : i ≠ .crz) :
    (effect P i (s.setA v)).setA 0 = (effect P i s).setA 0 := by
  cases i with
  | output => exact absurd rfl hout
  | crz => exact absurd rfl hcrz
  | input =>
    simp only [effect]
    cases hx : s.inp with
    | none =>
      rw [inputEffect_none P s hx, inputEffect_none P (s.setA v) hx]
      rfl
    | some x =>
      rw [inputEffect_some P s x hx, inputEffect_some P (s.setA v) x hx]
      rfl
  | _ => rfl

/-- Of the operations only ROT, CRZ, MOVD and JMP read D: with another D the others end in the same state but for D. -/
theorem effect_setD (P : Params) {i : Instr} (s : State) (v : Cell) (hrot : i ≠ .rot) (hcrz : i ≠ .crz)
    (hmovd : i ≠ .movd) (hjmp : i ≠ .jmp) : (effect P i (s.setD v)).setD 0 = (effect P i s).setD 0 := by
  cases i with
  | rot => exact absurd rfl hrot
  | crz => exact absurd rfl hcrz
  | movd => exact absurd rfl hmovd
  | jmp => exact absurd rfl hjmp
  | input =>
    simp only [effect]
    cases hx : s.inp with
    | none =>
      rw [inputEffect_none P s hx, inputEffect_none P (s.setD v) hx]
      rfl
    | some x =>
      rw [inputEffect_some P s x hx, inputEffect_some P (s.setD v) x hx]
      rfl
  | _ => rfl

/-- The fetch does not depend on A (R73). -/
@[simp] theorem State.fetchWith_setA (P : Params) (s : State) (v : Cell) :
    (s.setA v).fetchWith P = s.fetchWith P := rfl

/-- The fetch does not depend on D (R73). -/
@[simp] theorem State.fetchWith_setD (P : Params) (s : State) (v : Cell) :
    (s.setD v).fetchWith P = s.fetchWith P := rfl

/-- The cell at D after ROT or CRZ as a whole: the result, under the cipher where D is IP (R37). -/
theorem State.storeResult_complete_read_d (s : State) (P : Params) (r n : Cell) (o : Option Byte) (b : Bool) :
    ((s.storeResult r).complete P n o b).mem.read s.d = if s.d = s.ip then P.cipher r else r := by
  rw [State.storeResult_complete_read]
  by_cases hd : s.d = s.ip
  · rw [if_pos hd, if_pos hd, if_pos hd.symm]
  · rw [if_neg hd, if_neg hd, if_pos rfl]

/-- ROT and CRZ as steps: what they leave in A is what they store at D (R91, R93). -/
theorem stepWith_stores_a (P : Params) {s : State} (hs : s.status ≠ .halted)
    (hi : s.fetchWith P = .rot ∨ s.fetchWith P = .crz) :
    (stepWith P s).mem.read s.d = if s.d = s.ip then P.cipher (stepWith P s).a else (stepWith P s).a := by
  obtain hi | hi := hi
  all_goals
    rw [stepWith_of_fetch hs hi]
    exact s.storeResult_complete_read_d P _ _ _ _

/-! ### The port encodings (R17, R19, R123) -/

/-- The pattern of a cell is the binary number of its value: 59049 values fit in 16 bits. -/
@[simp] theorem cellBits_toNat (v : Cell) : (cellBits v).toNat = v.val := by
  rw [cellBits, BitVec.toNat_ofNat]
  exact Nat.mod_eq_of_lt (by omega)

/-- The pattern of a cell is read back. -/
theorem cellOfBits_cellBits (v : Cell) : cellOfBits (cellBits v) = some v := by
  simp [cellOfBits]

/-- The pattern of an input value, with `in_valid`, is that value. -/
theorem inputOfPorts_cellBits (x : InputValue) : inputOfPorts true (cellBits x.value) = .ok (some x) := by
  cases x with
  | byte b =>
    have hval : (cellBits (InputValue.byte b).value).toNat = b.toNat := cellBits_toNat _
    have hbyte : (cellBits (InputValue.byte b).value).setWidth 8 = b := by
      apply BitVec.eq_of_toNat_eq
      rw [BitVec.toNat_setWidth, hval, Nat.mod_eq_of_lt b.isLt]
    have hlt : b.toNat < 256 := b.isLt
    simp [inputOfPorts, hval, hlt, hbyte]
  | eof =>
    have hval : (cellBits InputValue.eof.value).toNat = 59048 := cellBits_toNat _
    simp [inputOfPorts, hval]

/-! ### The obligations on the state -/

/-- Settles O11: `stepWith_mem_wf`, of which `step` is the case of the default parameters. -/
theorem everyStepKeepsMemoryCanonical : Obligations.EveryStepKeepsMemoryCanonical := by
  refine ⟨fun s t hwf hstep => ?_, stepWith_mem_wf⟩
  rw [← (step_eq_next_iff s t).1 hstep]
  exact stepWith_mem_wf defaults s hwf

/-- Settles O48: the invariant holds after every step, whether or not it held before
(`stepWith_waitingMeansInput`). -/
theorem everyStepKeepsWaitingMeansInput : Obligations.EveryStepKeepsWaitingMeansInput := by
  refine ⟨fun s t _ hstep => ?_, fun P s _ => stepWith_waitingMeansInput P s⟩
  rw [← (step_eq_next_iff s t).1 hstep]
  exact stepWith_waitingMeansInput defaults s

/-- Settles O10. -/
theorem canonicalMemoriesThatReadAlikeAreEqual : Obligations.CanonicalMemoriesThatReadAlikeAreEqual :=
  fun _ _ => Memory.eq_of_read_eq

/-- Settles O35, one row of R18 after the other. -/
theorem statusMachine : Obligations.StatusMachine := by
  intro P s
  refine ⟨fun hs => ?halted, fun hs hi => ?hlt, fun hs hi hinp => ?wait, fun hs hc => ?completed⟩
  case halted => rw [stepWith_of_halted P s hs, State.idle_engine]
  case hlt =>
    rw [stepWith_of_fetch hs hi]
    rfl
  case wait =>
    rw [stepWith_of_fetch hs hi, effect, inputEffect_none P s hinp]
    rfl
  case completed => rw [stepWith_of_not_halted P s hs, effect_status, if_pos hc]

/-- Settles O38: the writers of A by their operations' effects, the frame by `effect_a` and `effect_setA`. -/
theorem whoWritesAndReadsA : Obligations.WhoWritesAndReadsA := by
  intro P s
  refine ⟨fun hs x hi hx => ?input, fun hs hi => ?rot, fun hs hi => ?crz, fun hs hi hd => ?stored,
    fun hs hi hd => ?ciphered, fun hs hi => ?output, fun hrot hcrz hin => ?unwritten, fun hout hcrz v => ?unread⟩
  case input => rw [stepWith_of_fetch hs hi, effect, inputEffect_some P s x hx, State.complete_a, State.setA_a]
  case rot =>
    rw [stepWith_of_fetch hs hi]
    rfl
  case crz =>
    rw [stepWith_of_fetch hs hi]
    rfl
  case stored => rw [stepWith_stores_a P hs hi, if_neg hd]
  case ciphered => rw [stepWith_stores_a P hs hi, if_pos hd]
  case output =>
    refine ⟨outByte s.a, by rw [stepWith_of_fetch hs hi]; rfl, ?_⟩
    rw [outByte, BitVec.toNat_ofNat]
    exact Nat.mod_mod _ _
  case unwritten =>
    by_cases hs : s.status = .halted
    · rw [stepWith_of_halted P s hs, State.idle_a]
    · rw [stepWith_of_not_halted P s hs, effect_a P hrot hcrz hin]
  case unread =>
    by_cases hs : s.status = .halted
    · rw [stepWith_of_halted P s hs, stepWith_of_halted P (s.setA v) hs]
      rfl
    · rw [stepWith_of_not_halted P s hs, stepWith_of_not_halted P (s.setA v) hs, State.fetchWith_setA,
        effect_setA P s v hout hcrz]

/-- Settles O39: MOVD by its effect, the frame by `effect_d` and `effect_setD`. -/
theorem whoWritesAndReadsD : Obligations.WhoWritesAndReadsD := by
  intro P s
  refine ⟨fun hs hi => ?movd, fun hmovd => ?unwritten, fun hrot hcrz hmovd hjmp v => ?unread⟩
  case movd =>
    rw [stepWith_of_fetch hs hi]
    rfl
  case unwritten =>
    by_cases hs : s.status = .halted
    · rw [stepWith_of_halted P s hs, State.idle_d]
    · rw [stepWith_of_not_halted P s hs, effect_d P s hmovd]
  case unread =>
    by_cases hs : s.status = .halted
    · rw [stepWith_of_halted P s hs, stepWith_of_halted P (s.setD v) hs]
      rfl
    · rw [stepWith_of_not_halted P s hs, stepWith_of_not_halted P (s.setD v) hs, State.fetchWith_setD,
        effect_setD P s v hrot hcrz hmovd hjmp]

/-- Settles O50, by induction on how the host reached the state. -/
theorem reachableStatesWaitOnlyAtInput : Obligations.ReachableStatesWaitOnlyAtInput := by
  intro P s hreach
  induction hreach with
  | load img inputs => exact ⟨load_waitingMeansInput P img inputs, Memory.ofImage_wf img⟩
  | offer s inputs _ ih => exact ih
  | step s _ ih => exact ⟨stepWith_waitingMeansInput P s, stepWith_mem_wf P s ih.2⟩

/-- Settles O51: the registers by the definition of the load, the cells by `Memory.read_ofImage`. -/
theorem loadGivesTheResetStateOfItsImage : Obligations.LoadGivesTheResetStateOfItsImage := by
  intro P s img
  refine ⟨rfl, rfl, rfl, rfl, Memory.read_ofImage img, fun k hk => ?_⟩
  have hindex : decodeIndex (img 0) 0 = k := Fin.ext hk.symm
  rw [State.onEvent, State.fetchWith, State.load_ip, State.load_mem, Memory.read_ofImage, hindex]

/-- Settles O12. -/
theorem resetMemoryIsCanonical : Obligations.ResetMemoryIsCanonical :=
  ⟨reset_mem_wf, fun img _ => Memory.ofImage_wf img⟩

/-- Settles O49. -/
theorem resetMeetsWaitingMeansInput : Obligations.ResetMeetsWaitingMeansInput :=
  fun P => ⟨waitingMeansInput_of_status_ne P (by decide), load_waitingMeansInput P⟩

/-- Settles O52: the two differ at most in their memories, which `Memory.ofImage_zero` identifies. -/
theorem resetStateIsTheLoadOfTheZeroImage : Obligations.ResetStateIsTheLoadOfTheZeroImage := by
  refine ⟨rfl, rfl, rfl, rfl, ?_⟩
  rw [State.load, Memory.ofImage_zero]
  rfl

/-- Settles O55. -/
theorem portEncodingsAreExact : Obligations.PortEncodingsAreExact := by
  refine ⟨rfl, rfl, rfl, fun st => ?statusReadBack, by decide, cellBits_toNat, cellOfBits_cellBits,
    fun b hb => ?noCell, inputOfPorts_cellBits, fun b hbyte heof => ?noInputValue, fun b => rfl⟩
  case statusReadBack => cases st <;> decide
  case noCell => rw [cellOfBits, dif_neg (Nat.not_lt.2 hb)]
  case noInputValue => simp [inputOfPorts, Nat.not_lt.2 hbyte, heof]

end Sys2Proof.Machine

namespace Sys2Proof.Machine

/-! ### Addresses reduced modulo 59049 (R31, R35) -/

/-- Two numbers are reduced to one address exactly when they agree modulo 59049. -/
theorem wrap_eq_wrap_iff (k n : Nat) : wrap k = wrap n ↔ k % 59049 = n % 59049 :=
  Fin.ext_iff

/-- The address space is circular. -/
@[simp] theorem wrap_add_size (n : Nat) : wrap (n + 59049) = wrap n :=
  (wrap_eq_wrap_iff _ _).2 (Nat.add_mod_right n 59049)

/-- No cell is its own successor, not even at the end of the address space. -/
theorem nextAddr_ne_self (c : Cell) : nextAddr c ≠ c := by
  intro h
  have hval : (c.val + 1) % 59049 = c.val := congrArg Fin.val h
  omega

/-- `MemRead` after `MemWrite` (R35). -/
theorem Memory.memRead_memWrite (m : Memory) (n k : Nat) (v : Cell) :
    (m.memWrite n v).memRead k = if k % 59049 = n % 59049 then v else m.memRead k := by
  simp only [Memory.memRead, Memory.memWrite, Memory.read_write, wrap_eq_wrap_iff]

/-! ### The cells a step writes (R30) -/

/-- A completed operation leaves every cell but the one at IP as it was before the cipher (R76). -/
theorem State.complete_read_of_ne (s : State) (P : Params) (n : Cell) (o : Option Byte) (b : Bool) {x : Cell}
    (hip : x ≠ s.ip) : (s.complete P n o b).mem.read x = s.mem.read x := by
  rw [State.complete_read, if_neg hip]

/-- ROT and CRZ as a whole leave every cell but those at IP and D as it is. -/
theorem State.storeResult_complete_read_of_ne (s : State) (P : Params) (r n : Cell) (o : Option Byte) (b : Bool)
    {x : Cell} (hip : x ≠ s.ip) (hd : x ≠ s.d) :
    ((s.storeResult r).complete P n o b).mem.read x = s.mem.read x := by
  rw [State.storeResult_complete_read, if_neg hip, if_neg hd]

/-- An operation leaves every cell as it is but the one at IP and, for ROT and CRZ, the one at D. -/
theorem effect_read_of_ne (P : Params) {i : Instr} {s : State} {x : Cell} (hip : x ≠ s.ip)
    (hd : i = .rot ∨ i = .crz → x ≠ s.d) : (effect P i s).mem.read x = s.mem.read x := by
  cases i with
  | nop => exact s.complete_read_of_ne P _ _ _ hip
  | rot => exact s.storeResult_complete_read_of_ne P _ _ _ _ hip (hd (.inl rfl))
  | crz => exact s.storeResult_complete_read_of_ne P _ _ _ _ hip (hd (.inr rfl))
  | movd => exact (s.setD s.operand).complete_read_of_ne P _ _ _ hip
  | input =>
    rw [effect]
    cases hx : s.inp with
    | none => rw [inputEffect_none P s hx, State.wait_mem]
    | some v =>
      rw [inputEffect_some P s v hx]
      exact (s.setA v.value).complete_read_of_ne P _ _ _ hip
  | output => exact s.complete_read_of_ne P _ _ _ hip
  | jmp => exact s.complete_read_of_ne P _ _ _ hip
  | hlt => rfl

/-! ### The cells a step reads (R30, R71) -/

/-- Two states that differ at most in the cells outside `Q`. -/
structure State.AlikeOn (Q : Cell → Prop) (t s : State) : Prop where
  ip : t.ip = s.ip
  a : t.a = s.a
  d : t.d = s.d
  status : t.status = s.status
  inputs : t.inputs = s.inputs
  out : t.out = s.out
  inTaken : t.inTaken = s.inTaken
  read : ∀ x, Q x → t.mem.read x = s.mem.read x

section AlikeOn

variable {Q : Cell → Prop} {t s : State}

/-- Another memory makes a state that is alike on the cells where the two memories agree. -/
theorem State.setMem_alikeOn (s : State) (m : Memory) :
    State.AlikeOn (fun x => m.read x = s.mem.read x) (s.setMem m) s :=
  ⟨rfl, rfl, rfl, rfl, rfl, rfl, rfl, fun _ hx => hx⟩

theorem State.AlikeOn.inp_eq (h : State.AlikeOn Q t s) : t.inp = s.inp := by
  rw [State.inp, State.inp, h.inputs]

theorem State.AlikeOn.operand_eq (h : State.AlikeOn Q t s) (hd : Q s.d) : t.operand = s.operand := by
  rw [State.operand, State.operand, h.d, h.read _ hd]

theorem State.AlikeOn.fetchWith_eq (h : State.AlikeOn Q t s) (P : Params) (hip : Q s.ip) :
    t.fetchWith P = s.fetchWith P := by
  rw [State.fetchWith, State.fetchWith, h.ip, h.read _ hip]

theorem State.AlikeOn.setA (h : State.AlikeOn Q t s) (v : Cell) : State.AlikeOn Q (t.setA v) (s.setA v) :=
  { h with a := rfl }

theorem State.AlikeOn.setD (h : State.AlikeOn Q t s) (v : Cell) : State.AlikeOn Q (t.setD v) (s.setD v) :=
  { h with d := rfl }

theorem State.AlikeOn.setStatus (h : State.AlikeOn Q t s) (st : Status) :
    State.AlikeOn Q (t.setStatus st) (s.setStatus st) :=
  { h with status := rfl }

theorem State.AlikeOn.answer (h : State.AlikeOn Q t s) (o : Option Byte) (b : Bool) :
    State.AlikeOn Q (t.answer o b) (s.answer o b) :=
  { h with inputs := congrArg List.tail h.inputs, out := rfl, inTaken := rfl }

/-- The store of ROT and CRZ reads no cell. -/
theorem State.AlikeOn.storeResult (h : State.AlikeOn Q t s) (r : Cell) :
    State.AlikeOn Q (t.storeResult r) (s.storeResult r) where
  ip := h.ip
  a := rfl
  d := h.d
  status := h.status
  inputs := h.inputs
  out := h.out
  inTaken := h.inTaken
  read x hx := by rw [State.storeResult_read, State.storeResult_read, h.d, h.read x hx]

/-- The phases common to all completed operations read the cell at IP, for its cipher. -/
theorem State.AlikeOn.complete (h : State.AlikeOn Q t s) (P : Params) (hip : Q s.ip) (n : Cell) (o : Option Byte)
    (b : Bool) : State.AlikeOn Q (t.complete P n o b) (s.complete P n o b) where
  ip := rfl
  a := h.a
  d := h.d
  status := rfl
  inputs := congrArg List.tail h.inputs
  out := rfl
  inTaken := rfl
  read x hx := by rw [State.complete_read, State.complete_read, h.ip, h.read _ hip, h.read x hx]

/-- An operation keeps states alike when they agree at IP and, for the three operations with an operand, at D. -/
theorem effect_alikeOn (P : Params) {i : Instr} (h : State.AlikeOn Q t s) (hip : Q s.ip)
    (hd : i = .rot ∨ i = .crz ∨ i = .movd → Q s.d) : State.AlikeOn Q (effect P i t) (effect P i s) := by
  cases i with
  | nop =>
    simp only [effect, nopEffect, h.ip]
    exact h.complete P hip _ _ _
  | rot =>
    simp only [effect, rotEffect, h.operand_eq (hd (.inl rfl)), h.ip]
    exact (h.storeResult _).complete P hip _ _ _
  | crz =>
    simp only [effect, crzEffect, h.operand_eq (hd (.inr (.inl rfl))), h.a, h.ip]
    exact (h.storeResult _).complete P hip _ _ _
  | movd =>
    simp only [effect, movdEffect, h.operand_eq (hd (.inr (.inr rfl))), h.ip]
    exact (h.setD s.operand).complete P hip _ _ _
  | input =>
    simp only [effect]
    cases hx : s.inp with
    | none =>
      rw [inputEffect_none P s hx, inputEffect_none P t (h.inp_eq.trans hx)]
      exact (h.setStatus _).answer _ _
    | some v =>
      rw [inputEffect_some P s v hx, inputEffect_some P t v (h.inp_eq.trans hx), h.ip]
      exact (h.setA v.value).complete P hip _ _ _
  | output =>
    simp only [effect, outputEffect, h.ip, h.a]
    exact h.complete P hip _ _ _
  | jmp =>
    simp only [effect, jmpEffect, h.d]
    exact h.complete P hip _ _ _
  | hlt => exact (h.setStatus _).answer _ _

/-- A step keeps states alike when they agree on the cells it reads; while HALTED it reads none. -/
theorem stepWith_alikeOn (P : Params) (h : State.AlikeOn Q t s) (hip : s.status ≠ .halted → Q s.ip)
    (hd : s.status ≠ .halted → s.fetchWith P = .rot ∨ s.fetchWith P = .crz ∨ s.fetchWith P = .movd → Q s.d) :
    State.AlikeOn Q (stepWith P t) (stepWith P s) := by
  by_cases hs : s.status = .halted
  · rw [stepWith_of_halted P s hs, stepWith_of_halted P t (h.status.trans hs)]
    exact h.answer none false
  · have ht : t.status ≠ .halted := h.status ▸ hs
    rw [stepWith_of_not_halted P s hs, stepWith_of_not_halted P t ht, h.fetchWith_eq P (hip hs)]
    exact effect_alikeOn P h (hip hs) (hd hs)

end AlikeOn

/-! ### What the fetch sees of a write (R42) -/

/-- The fetch after a write of any cell. -/
theorem State.fetchWith_setMem_write (P : Params) (s : State) (x v : Cell) :
    (s.setMem (s.mem.write x v)).fetchWith P =
      if s.ip = x then P.decode (decodeIndex v x) else s.fetchWith P := by
  rw [State.fetchWith, State.setMem_mem, State.setMem_ip, Memory.read_write]
  by_cases hx : s.ip = x
  · rw [if_pos hx, if_pos hx, hx]
  · rw [if_neg hx, if_neg hx, State.fetchWith]

/-- ROT or CRZ with D the next address: their result is fetched next, and not ciphered, since D is not IP. -/
theorem State.fetchWith_storeResult_complete (P : Params) (s : State) (r : Cell) (o : Option Byte) (b : Bool)
    (hd : s.d = nextAddr s.ip) :
    ((s.storeResult r).complete P (nextAddr s.ip) o b).fetchWith P = P.decode (decodeIndex r s.d) := by
  have hne : s.d ≠ s.ip := hd ▸ nextAddr_ne_self s.ip
  rw [State.fetchWith, State.complete_ip, ← hd, State.storeResult_complete_read_d, if_neg hne]

/-- An operation that completes at its own address: its ciphered cell is fetched next. -/
theorem State.fetchWith_complete_ip (P : Params) (s : State) (o : Option Byte) (b : Bool) :
    (s.complete P s.ip o b).fetchWith P = P.decode (decodeIndex (P.cipher (s.mem.read s.ip)) s.ip) := by
  rw [State.fetchWith, State.complete_ip, State.complete_read, if_pos rfl]

/-- The first fetch after a load decodes the cell of address 0 of the image. -/
theorem State.fetchWith_load (P : Params) (img : Cell → Cell) (l : List (Option InputValue)) :
    (State.load img l).fetchWith P = P.decode (decodeIndex (img 0) 0) := by
  rw [State.fetchWith, State.load_mem, State.load_ip, Memory.read_ofImage]

/-! ### The obligations on memory -/

/-- Settles O13: past the status gate by `effect_read_of_ne`; a step while HALTED writes nothing. -/
theorem stepWritesOnlyTheCellsAtIpAndD : Obligations.StepWritesOnlyTheCellsAtIpAndD := by
  intro P s x hip hd
  by_cases hs : s.status = .halted
  · rw [stepWith_of_halted P s hs, State.idle_mem]
  · rw [stepWith_of_not_halted P s hs, effect_read_of_ne P hip hd]

/-- Settles O14: the step keeps the two states alike wherever the memories agreed (`stepWith_alikeOn`). -/
theorem stepReadsOnlyTheCellsAtIpAndD : Obligations.StepReadsOnlyTheCellsAtIpAndD := by
  intro P s m hip hd
  have h := stepWith_alikeOn P (s.setMem_alikeOn m) hip hd
  exact ⟨h.ip, h.a, h.d, h.status, h.out, h.inTaken, h.read⟩

/-- Settles O15, one writer after the other. -/
theorem fetchSeesTheLastWrite : Obligations.FetchSeesTheLastWrite := by
  intro P s
  refine ⟨s.fetchWith_setMem_write P, fun hs hi hd => ?rot, fun hs hi hd => ?crz, fun hs hi hd => ?jmp,
    State.fetchWith_load P⟩
  case rot =>
    rw [stepWith_of_fetch hs hi]
    exact s.fetchWith_storeResult_complete P _ _ _ (Fin.ext hd)
  case crz =>
    rw [stepWith_of_fetch hs hi]
    exact s.fetchWith_storeResult_complete P _ _ _ (Fin.ext hd)
  case jmp =>
    rw [stepWith_of_fetch hs hi, effect, jmpEffect, hd, State.fetchWith_complete_ip]

/-- Settles O8. -/
theorem readAfterWriteAtReducedAddresses : Obligations.ReadAfterWriteAtReducedAddresses :=
  Memory.memRead_memWrite

/-- Settles O9: accesses by `wrap_add_size`, and no step is an error by `step_eq`. -/
theorem addressSpaceIsCircular : Obligations.AddressSpaceIsCircular := by
  refine ⟨fun m n => ⟨?read, wrap n, rfl, rfl⟩, fun m n v => ⟨?write, wrap n, rfl, rfl⟩, fun c => rfl, rfl,
    fun s => ⟨_, step_eq s⟩⟩
  case read => rw [Memory.memRead, wrap_add_size, Memory.memRead]
  case write => rw [Memory.memWrite, wrap_add_size, Memory.memWrite]

end Sys2Proof.Machine

namespace Sys2Proof.Machine

/-! ### The decode index as a residue modulo 94 (R51, R58) -/

/-- A cell has decode index k at c exactly when its sum with the address leaves the remainder k (R51). -/
theorem decodeIndex_eq_iff (v c : Cell) (k : Index) : decodeIndex v c = k ↔ (v.val + c.val) % 94 = k.val :=
  Fin.ext_iff

/-- Sums congruent modulo 94 give one decode index (R58 b). -/
theorem decodeIndex_congr {v c v' c' : Cell} (h : (v.val + c.val) % 94 = (v'.val + c'.val) % 94) :
    decodeIndex v c = decodeIndex v' c' :=
  (decodeIndex_eq_iff v c _).2 h

/-- Position dependence, where the address does not wrap (R58 a). -/
theorem decodeIndex_nextAddr (v : Cell) {c : Cell} (hc : c ≠ 59048) :
    (decodeIndex v (nextAddr c)).val = ((decodeIndex v c).val + 1) % 94 := by
  have hval : c.val ≠ 59048 := fun h => hc (Fin.ext h)
  have hnext : (nextAddr c).val = c.val + 1 := Nat.mod_eq_of_lt (by omega)
  calc (v.val + (nextAddr c).val) % 94 = (v.val + c.val + 1) % 94 := by rw [hnext, Nat.add_assoc]
    _ = ((v.val + c.val) % 94 + 1) % 94 := (Nat.mod_add_mod _ _ _).symm

/-! ### The encoder's window (R61) -/

theorem encodeIndex_val (k : Index) (c : Cell) :
    (encodeIndex k c).val = 33 + (k.val + 94 - (c.val + 33) % 94) % 94 := rfl

/-- The encoded cell is a printable character. -/
theorem encodeIndex_mem_window (k : Index) (c : Cell) :
    33 ≤ (encodeIndex k c).val ∧ (encodeIndex k c).val ≤ 126 := by
  rw [encodeIndex_val]
  omega

/-- The encoded cell has the index it was made for. -/
@[simp] theorem decodeIndex_encodeIndex (k : Index) (c : Cell) : decodeIndex (encodeIndex k c) c = k := by
  rw [decodeIndex_eq_iff, encodeIndex_val]
  omega

/-- The cells with index k at c are one residue class modulo 94, the one of the encoded cell. -/
theorem decodeIndex_eq_iff_modEq (v c : Cell) (k : Index) :
    decodeIndex v c = k ↔ v.val ≡ (encodeIndex k c).val [MOD 94] := by
  have henc : (encodeIndex k c).val + c.val ≡ k.val [MOD 94] :=
    ((decodeIndex_eq_iff _ _ _).1 (decodeIndex_encodeIndex k c)).trans (Nat.mod_eq_of_lt k.isLt).symm
  calc decodeIndex v c = k ↔ v.val + c.val ≡ k.val [MOD 94] := by
        rw [decodeIndex_eq_iff, Nat.ModEq, Nat.mod_eq_of_lt k.isLt]
    _ ↔ v.val + c.val ≡ (encodeIndex k c).val + c.val [MOD 94] :=
        ⟨fun h => h.trans henc.symm, fun h => h.trans henc⟩
    _ ↔ v.val ≡ (encodeIndex k c).val [MOD 94] := Nat.ModEq.add_iff_right rfl

/-- A window of 94 values holds one cell of each residue class, so the encoded cell is the only one there. -/
theorem decodeIndex_eq_iff_eq_encodeIndex {v : Cell} (hlo : 33 ≤ v.val) (hhi : v.val ≤ 126) (c : Cell) (k : Index) :
    decodeIndex v c = k ↔ v = encodeIndex k c := by
  obtain ⟨henclo, henchi⟩ := encodeIndex_mem_window k c
  rw [decodeIndex_eq_iff_modEq, Fin.ext_iff, Nat.ModEq]
  omega

/-! ### How many cells select an index (R58 b) -/

/-- Counting over `Fin n` is counting below n. -/
theorem card_filter_univ_fin_val (n : Nat) (p : Nat → Prop) [DecidablePred p] :
    (Finset.univ.filter fun v : Fin n => p v.val).card = n.count p := by
  rw [Nat.count_eq_card_filter_range, ← Nat.Iio_eq_range, ← Fin.map_valEmbedding_univ, Finset.filter_map,
    Finset.card_map]
  rfl

/-- 59049 = 628 * 94 + 17: every residue class has 628 cells, and the classes of 0 to 16 have one more. -/
theorem card_decodeIndex_eq (c : Cell) (k : Index) :
    (Finset.univ.filter fun v : Cell => decodeIndex v c = k).card =
      628 + if (encodeIndex k c).val % 94 < 17 then 1 else 0 := by
  simp only [decodeIndex_eq_iff_modEq]
  rw [card_filter_univ_fin_val 59049 fun n => n ≡ (encodeIndex k c).val [MOD 94],
    Nat.count_modEq_card 59049 (by decide)]

/-! ### The default DECODE (R53, R54) -/

/-- Every operation is decoded from the index the encoder uses for it. -/
theorem decodeDefault_indexOf (i : Instr) : decodeDefault (indexOf i) = i := by
  cases i with
  | nop => exact Laws.IndexDecodes.nop
  | rot => exact Laws.IndexDecodes.rot
  | crz => exact Laws.IndexDecodes.crz
  | movd => exact Laws.IndexDecodes.movd
  | input => exact Laws.IndexDecodes.input
  | output => exact Laws.IndexDecodes.output
  | jmp => exact Laws.IndexDecodes.jmp
  | hlt => exact Laws.IndexDecodes.hlt

/-- An index without a row of its own is NOP (R53). -/
theorem decodeDefault_of_notMem {k : Index} (hk : k ∉ ([4, 5, 23, 39, 40, 62, 68, 81] : List Index)) :
    decodeDefault k = .nop := by
  revert k
  decide

/-- A cell with the index of an operation decodes to it. -/
theorem decodeCell_of_decodeIndex {v c : Cell} {i : Instr} (h : decodeIndex v c = indexOf i) : decodeCell v c = i := by
  rw [decodeCell, h, decodeDefault_indexOf]

/-! ### The two-stage decode (R55) -/

/-- R55's own check of its table against R53: DECODE[k] = meaning(PERM[(k + 61) mod 94]). -/
theorem charMeaning_perm (k : Index) : charMeaning (perm.getD ((k.val + 61) % 94) 0) = decodeDefault k := by
  revert k
  decide

/-- PERM lists each of the characters 33 to 126 once. -/
theorem perm_perm_range' : perm.Perm (List.range' 33 94) := by
  decide

/-- R55's second form of the index is the decode index moved by 61. -/
theorem decodeTwoStage_eq (v c : Cell) : decodeTwoStage v c = decodeCell v c := by
  calc decodeTwoStage v c = charMeaning (perm.getD (((decodeIndex v c).val + 61) % 94) 0) := by
        rw [decodeTwoStage, decodeIndex, Nat.mod_add_mod]
    _ = decodeCell v c := charMeaning_perm (decodeIndex v c)

/-! ### A row of the opcode table at IP (log entries 12 and 13) -/

section placeIndex

variable (s : State) (k : Index)

@[simp] theorem State.placeIndex_mem : (s.placeIndex k).mem = s.mem.write s.ip (encodeIndex k s.ip) := rfl
@[simp] theorem State.placeIndex_ip : (s.placeIndex k).ip = s.ip := rfl
@[simp] theorem State.placeIndex_a : (s.placeIndex k).a = s.a := rfl
@[simp] theorem State.placeIndex_d : (s.placeIndex k).d = s.d := rfl
@[simp] theorem State.placeIndex_inputs : (s.placeIndex k).inputs = s.inputs := rfl
@[simp] theorem State.placeIndex_status :
    (s.placeIndex k).status = if s.status = .halted then .running else s.status := rfl

/-- The placed cell is fetched as the operation of its index, under every DECODE. -/
@[simp] theorem State.placeIndex_fetchWith (P : Params) : (s.placeIndex k).fetchWith P = P.decode k := by
  rw [State.fetchWith, State.placeIndex_mem, State.placeIndex_ip, Memory.read_write_same, decodeIndex_encodeIndex]

/-- A machine with a cell placed for it is never halted. -/
theorem State.placeIndex_status_ne_halted : (s.placeIndex k).status ≠ .halted := by
  rw [State.placeIndex_status]
  split
  · decide
  · assumption

end placeIndex

/-- Seven bits below 94 are a row of the table. -/
theorem tableIndex_of_row {nbits w : Nat} (hbits : 7 ≤ nbits) (hw : w % 128 < 94) :
    tableIndex nbits w = some ⟨w % 128, hw⟩ := by
  rw [tableIndex, if_neg (Nat.not_lt.2 hbits), indexOfNat, dif_pos hw]

/-- A row of the table is placed by its index. -/
theorem State.withFetchWord_of_tableIndex (s : State) {nbits w : Nat} {k : Index} (hk : tableIndex nbits w = some k) :
    s.withFetchWord nbits w = s.placeIndex k := by
  rw [State.withFetchWord, State.placeTableWord, hk]

/-- Past the status gate `step` is `exec` of the operation fetched (R72, R73). -/
theorem step_of_not_halted {s : State} (hs : s.status ≠ .halted) : step s = exec s.fetch s :=
  if_neg hs

/-! ### The obligations on the encoding -/

/-- Settles O1: the encoded cell has the operation's index, and is alone in the window with it. -/
theorem encodeThenDecodeGivesTheOperation : Obligations.EncodeThenDecodeGivesTheOperation := by
  intro i c
  obtain ⟨hlo, hhi⟩ := encodeIndex_mem_window (indexOf i) c
  exact ⟨decodeCell_of_decodeIndex (decodeIndex_encodeIndex (indexOf i) c), hlo, hhi,
    fun v hvlo hvhi => decodeIndex_eq_iff_eq_encodeIndex hvlo hvhi c (indexOf i)⟩

/-- Settles O2: the row's index k is placed, so the next step fetches `decodeDefault k`. -/
theorem placedTableRowIsRunByTheNextStep : Obligations.PlacedTableRowIsRunByTheNextStep := by
  intro s nbits w hbits hw
  have hk := tableIndex_of_row hbits hw
  rw [s.withFetchWord_of_tableIndex hk]
  have hfetch : (s.placeIndex ⟨w % 128, hw⟩).fetch = decodeDefault ⟨w % 128, hw⟩ :=
    s.placeIndex_fetchWith _ defaults
  refine ⟨decodeDefault ⟨w % 128, hw⟩, ?row, hfetch, ?run, rfl, rfl, rfl, rfl, rfl, ?frame⟩
  case row => rw [decodeTableWord, hk, Option.map_some]
  case run => rw [step_of_not_halted (s.placeIndex_status_ne_halted _), hfetch]
  case frame => exact fun x hx => Memory.read_write_other _ _ _ _ hx

/-- Settles O4, from the exact count. -/
theorem everyIndexIsSelectedBy628Or629Cells : Obligations.EveryIndexIsSelectedBy628Or629Cells := by
  intro c k
  rw [card_decodeIndex_eq]
  split
  · exact .inr rfl
  · exact .inl rfl

/-- Settles O6, by R55's check of PERM against DECODE. -/
theorem twoStageDecodeAgrees : Obligations.TwoStageDecodeAgrees :=
  ⟨decodeTwoStage_eq, perm_perm_range'⟩

/-- Settles O3: at the ends of the address space 59048 = 628 * 94 + 16. -/
theorem decodeIndexMovesWithTheAddress : Obligations.DecodeIndexMovesWithTheAddress := by
  intro v c
  have hlast : (v.val + 59048) % 94 = (v.val + 16) % 94 := by omega
  exact ⟨decodeIndex_nextAddr v, hlast, rfl, fun P _ _ h => congrArg P.decode (decodeIndex_congr h)⟩

/-- Settles O5: the assigned indices are the encoder's, every other one has no row. -/
theorem defaultDecodeTable : Obligations.DefaultDecodeTable :=
  ⟨decodeDefault_indexOf .jmp, decodeDefault_indexOf .output, decodeDefault_indexOf .input, decodeDefault_indexOf .rot,
    decodeDefault_indexOf .movd, decodeDefault_indexOf .crz, decodeDefault_indexOf .nop, decodeDefault_indexOf .hlt,
    fun _ => decodeDefault_of_notMem⟩

/-- Settles O7: each cell by the index of its operation, and 81 at 93 by the unassigned index 80. -/
theorem knownCellsDecode : Obligations.KnownCellsDecode := by
  refine ⟨?jmp, ?output, ?input, ?rot, ?movd, ?crz, ?nop, ?hlt, ?unassigned, ?largestSum, ?large⟩
  case unassigned => exact decodeDefault_of_notMem (k := decodeIndex 81 93) (by decide)
  case largestSum => rfl
  all_goals exact decodeCell_of_decodeIndex rfl

end Sys2Proof.Machine

namespace Sys2Proof.Machine

/-! ### One step is R80's (R70, R80) -/

/-- What the last step returned, read off the state as R80 returns it. -/
def State.result (s : State) : StepResult where
  state := s.view
  out := s.out
  status := s.status
  inTaken := s.inTaken

/-- A write of the canonical memory is R80's `MemWrite`. -/
theorem State.view_setMem_write (s : State) (x v : Cell) : (s.setMem (s.mem.write x v)).view = s.view.poke x v := by
  have hread : (s.mem.write x v).read = fun y => if y = x then v else s.mem.read y :=
    funext (s.mem.read_write x v)
  rw [State.view, State.setMem_mem, hread]
  rfl

/-- The store of ROT and CRZ is R80's. -/
theorem State.view_storeResult (s : State) (r : Cell) :
    (s.storeResult r).view = { s.view.poke s.d r with a := r } := by
  rw [← State.view_setMem_write]
  rfl

/-- Self-modification is R80's cipher line. -/
theorem State.view_selfModify (s : State) (P : Params) :
    (s.selfModify P).view = s.view.poke s.ip (P.cipher (s.view.mem s.ip)) :=
  s.view_setMem_write _ _

/-- The common phases of a completed operation are the last four lines of R80. -/
theorem State.result_complete (s : State) (P : Params) (n : Cell) (o : Option Byte) (b : Bool) :
    (s.complete P n o b).result = s.view.finish P s.ip n o b := by
  rw [VMState.finish, ← State.view_selfModify]
  rfl

/-- Past the status gate, each operation returns what its line of R80 returns. -/
theorem effect_result (P : Params) {s : State} (hs : s.status ≠ .halted) :
    (effect P (s.fetchWith P) s).result = specStep P s.view s.inp := by
  have hdecode : P.decode ⟨((s.view.mem s.view.ip).val + s.view.ip.val) % 94, Nat.mod_lt _ (by decide)⟩ =
      s.fetchWith P := rfl
  have hview : s.view.status ≠ .halted := hs
  rw [specStep, if_neg hview]
  simp only [hdecode]
  cases s.fetchWith P with
  | nop => exact s.result_complete P _ _ _
  | rot =>
    rw [effect, rotEffect, State.result_complete, State.view_storeResult]
    rfl
  | crz =>
    rw [effect, crzEffect, State.result_complete, State.view_storeResult]
    rfl
  | movd => exact (s.setD s.operand).result_complete P _ _ _
  | input =>
    rw [effect]
    cases hx : s.inp with
    | none =>
      rw [inputEffect_none P s hx]
      rfl
    | some x =>
      rw [inputEffect_some P s x hx]
      exact (s.setA x.value).result_complete P _ _ _
  | output => exact s.result_complete P _ _ _
  | jmp => exact s.result_complete P _ _ _
  | hlt => rfl

/-- A step returns what R80's step returns, in every status. -/
theorem stepWith_result (P : Params) (s : State) : (stepWith P s).result = specStep P s.view s.inp := by
  by_cases hs : s.status = .halted
  · have hview : s.view.status = .halted := hs
    rw [stepWith_of_halted P s hs, specStep, if_pos hview, ← hs]
    rfl
  · rw [stepWith_of_not_halted P s hs, effect_result P hs]

/-- Settles O42, from `stepWith_result` component by component. -/
theorem stepIsThePseudocodeOfR80 : Obligations.StepIsThePseudocodeOfR80 := by
  refine ⟨fun P s => ?_, step_eq⟩
  rw [← stepWith_result]
  exact ⟨rfl, rfl, rfl, rfl⟩

/-! ### Runs -/

/-- Giving the host's arguments again as they are changes nothing. -/
theorem State.setInputs_of_inputs_eq {s : State} {l : List (Option InputValue)} (h : s.inputs = l) :
    s.setInputs l = s := by
  subst h
  rfl

/-- A step with the argument x leaves the arguments after it for the rest of the run. -/
theorem stepWith_setInputs_cons (P : Params) (s : State) (x : Option InputValue) (l : List (Option InputValue)) :
    (stepWith P (s.setInputs (x :: l))).setInputs l = stepWith P (s.setInputs (x :: l)) :=
  State.setInputs_of_inputs_eq (stepWith_inputs P _)

/-- Settles O43, by induction on the arguments: the first step is R80's (`stepWith_result`), and the others are the run
from the state it ends in. -/
theorem runsAreRunsOfThePseudocode : Obligations.RunsAreRunsOfThePseudocode := by
  intro P ins
  induction ins with
  | nil => exact fun s => ⟨rfl, rfl⟩
  | cons x l ih =>
    intro s
    have hstep : (stepWith P (s.setInputs (x :: l))).result = specStep P s.view x := stepWith_result P _
    obtain ⟨hend, houts⟩ := ih (stepWith P (s.setInputs (x :: l)))
    rw [stepWith_setInputs_cons] at hend houts
    rw [List.length_cons, runWith, outputsWith, hend, houts, specRun, ← hstep]
    exact ⟨rfl, rfl⟩

/-- A run of a machine whose first step goes on is the run from the next state. -/
theorem run_succ_of_step_eq_next (M : Host.Core) (k : Nat) {s t : M.State} (h : M.step s = .next t) :
    M.run (k + 1) s = M.run k t := by
  rw [Host.Core.run, h]

/-- Settles O44, by induction on the number of steps. -/
theorem everyRunGoesOn : Obligations.EveryRunGoesOn := by
  intro k
  induction k with
  | zero => exact fun s => rfl
  | succ k ih =>
    intro s
    calc Host.Core.run Sys2Proof.core (k + 1) s = Host.Core.run Sys2Proof.core k (stepWith defaults s) :=
          run_succ_of_step_eq_next Sys2Proof.core k (step_eq s)
      _ = .next (runWith defaults k (stepWith defaults s)) := ih (stepWith defaults s)

/-! ### The default CIPHER (R77) -/

/-- Inside [33, 126] the cipher is an entry of XLAT2. -/
theorem cipherDefault_of_printable {v : Cell} (hlo : 33 ≤ v.val) (hhi : v.val ≤ 126) :
    ∃ h : v.val - 33 < cipherTable.length, cipherDefault v = cipherTable[v.val - 33] := by
  have hlt : v.val - 33 < cipherTable.length := by
    have hlength : cipherTable.length = 94 := rfl
    omega
  exact ⟨hlt, by rw [cipherDefault, if_pos ⟨hlo, hhi⟩, List.getD_eq_getElem _ _ hlt]⟩

/-- Outside [33, 126] the cipher leaves the cell as it is (D7). -/
theorem cipherDefault_of_not_printable {v : Cell} (h : v.val < 33 ∨ 126 < v.val) : cipherDefault v = v := by
  rw [cipherDefault, if_neg (by omega), cipherOutside]

/-- XLAT2 lists each of the values 33 to 126 once. -/
theorem cipherTable_perm_range' : (cipherTable.map Fin.val).Perm (List.range' 33 94) := by
  decide

/-- No entry of XLAT2 stands at the place of its own value. -/
theorem cipherTable_ne_place (j : Fin 94) : (cipherTable[j.val]'j.isLt).val ≠ 33 + j.val := by
  revert j
  decide

theorem cipherTable_nodup : cipherTable.Nodup :=
  (cipherTable_perm_range'.nodup_iff.2 List.nodup_range').of_map _

/-- The cipher maps [33, 126] into itself. -/
theorem cipherDefault_printable {v : Cell} (hlo : 33 ≤ v.val) (hhi : v.val ≤ 126) :
    33 ≤ (cipherDefault v).val ∧ (cipherDefault v).val ≤ 126 := by
  obtain ⟨hlt, hentry⟩ := cipherDefault_of_printable hlo hhi
  have hmem : (cipherDefault v).val ∈ List.range' 33 94 :=
    cipherTable_perm_range'.mem_iff.1 (List.mem_map_of_mem (hentry ▸ List.getElem_mem hlt))
  rw [List.mem_range'_1] at hmem
  omega

/-- The cipher has no fixed point in [33, 126]. -/
theorem cipherDefault_ne_self {v : Cell} (hlo : 33 ≤ v.val) (hhi : v.val ≤ 126) : cipherDefault v ≠ v := by
  obtain ⟨hlt, hentry⟩ := cipherDefault_of_printable hlo hhi
  have hplace := cipherTable_ne_place ⟨v.val - 33, hlt⟩
  rw [hentry]
  intro hfix
  exact hplace ((congrArg Fin.val hfix).trans (Nat.add_sub_cancel' hlo).symm)

/-- [33, 126] is closed under the cipher in both directions. -/
theorem cipherDefault_printable_iff (v : Cell) :
    (33 ≤ (cipherDefault v).val ∧ (cipherDefault v).val ≤ 126) ↔ 33 ≤ v.val ∧ v.val ≤ 126 := by
  by_cases hv : 33 ≤ v.val ∧ v.val ≤ 126
  · exact iff_of_true (cipherDefault_printable hv.1 hv.2) hv
  · rw [cipherDefault_of_not_printable (by omega)]

/-- The cipher takes no two values to one: XLAT2 has no entry twice, and its entries are kept apart from the values
outside [33, 126]. -/
theorem cipherDefault_injective : Function.Injective cipherDefault := by
  intro v w h
  have hboth : 33 ≤ v.val ∧ v.val ≤ 126 ↔ 33 ≤ w.val ∧ w.val ≤ 126 := by
    rw [← cipherDefault_printable_iff v, h, cipherDefault_printable_iff w]
  by_cases hv : 33 ≤ v.val ∧ v.val ≤ 126
  · have hw := hboth.1 hv
    obtain ⟨_, hventry⟩ := cipherDefault_of_printable hv.1 hv.2
    obtain ⟨_, hwentry⟩ := cipherDefault_of_printable hw.1 hw.2
    have hplace : v.val - 33 = w.val - 33 :=
      cipherTable_nodup.getElem_inj_iff.1 (hventry.symm.trans (h.trans hwentry))
    exact Fin.ext (by omega)
  · have hw := mt hboth.2 hv
    rwa [cipherDefault_of_not_printable (by omega), cipherDefault_of_not_printable (by omega)] at h

/-- Settles O21: an injection of the finitely many cell values into themselves is a bijection. -/
theorem defaultCipherPermutesThePrintableRange : Obligations.DefaultCipherPermutesThePrintableRange := by
  refine ⟨fun v hlo hhi => ?_, fun v => cipherDefault_of_not_printable,
    Finite.injective_iff_bijective.1 cipherDefault_injective⟩
  obtain ⟨hclo, hchi⟩ := cipherDefault_printable hlo hhi
  exact ⟨hclo, hchi, cipherDefault_ne_self hlo hhi⟩

/-! ### A completed operation: dispatch, then the common phases (R74, R76, R78) -/

/-- What the dispatch phase of an operation that completes does to the registers and memory (R74), before the cipher
and the advance. -/
def State.dispatched (P : Params) (i : Instr) (s : State) : State :=
  match i with
  | .rot => s.storeResult (rotate P.rotDir s.operand)
  | .crz => s.storeResult (crazy P.crzTrit s.a s.operand)
  | .movd => s.setD s.operand
  | .input => s.setA ((s.inp.map InputValue.value).getD s.a)
  | _ => s

/-- Where the advance phase puts IP (R78). -/
def State.advanced (i : Instr) (s : State) : Cell := if i = .jmp then s.d else nextAddr s.ip

/-- An operation that completes is its dispatch followed by the common phases. -/
theorem effect_of_completes (P : Params) {i : Instr} {s : State} (hc : completes i s = true) :
    ∃ o b, effect P i s = (s.dispatched P i).complete P (s.advanced i) o b := by
  cases i with
  | input =>
    obtain ⟨x, hx⟩ := Option.isSome_iff_exists.1 hc
    refine ⟨none, true, ?_⟩
    rw [effect, inputEffect_some P s x hx, State.dispatched, hx]
    rfl
  | hlt => exact absurd hc Bool.false_ne_true
  | _ => exact ⟨_, _, rfl⟩

/-- No operation moves IP before the advance phase. -/
@[simp] theorem State.dispatched_ip (P : Params) (i : Instr) (s : State) : (s.dispatched P i).ip = s.ip := by
  cases i <;> rfl

/-- What the dispatch leaves in the executed cell, where no result is stored there. -/
theorem State.dispatched_read_ip (P : Params) {i : Instr} {s : State} (hd : i = .rot ∨ i = .crz → s.d ≠ s.ip) :
    (s.dispatched P i).mem.read s.ip = s.mem.read s.ip := by
  cases i with
  | rot => exact (s.storeResult_read _ _).trans (if_neg (hd (.inl rfl)).symm)
  | crz => exact (s.storeResult_read _ _).trans (if_neg (hd (.inr rfl)).symm)
  | _ => rfl

/-- IP after a completed step. -/
theorem stepWith_ip_of_completes {P : Params} {s : State} (hs : s.status ≠ .halted)
    (hc : completes (s.fetchWith P) s = true) : (stepWith P s).ip = s.advanced (s.fetchWith P) := by
  obtain ⟨o, b, heffect⟩ := effect_of_completes P hc
  rw [stepWith_of_not_halted P s hs, heffect, State.complete_ip]

/-- The executed cell after a completed step: CIPHER of what the dispatch left there (R76). -/
theorem stepWith_read_ip_of_completes {P : Params} {s : State} (hs : s.status ≠ .halted)
    (hc : completes (s.fetchWith P) s = true) :
    (stepWith P s).mem.read s.ip = P.cipher ((s.dispatched P (s.fetchWith P)).mem.read s.ip) := by
  obtain ⟨o, b, heffect⟩ := effect_of_completes P hc
  rw [stepWith_of_not_halted P s hs, heffect, State.complete_read, State.dispatched_ip, if_pos rfl]

/-- Settles O36: IP by `stepWith_ip_of_completes`, D by `effect_d`. -/
theorem completedStepAdvancesOrJumps : Obligations.CompletedStepAdvancesOrJumps := by
  refine ⟨fun P s hs hc => ?_, rfl⟩
  rw [stepWith_ip_of_completes hs hc, State.advanced]
  refine ⟨⟨fun hjmp => if_pos hjmp, fun hjmp => ?_⟩, fun hmovd => ?_⟩
  · rw [if_neg hjmp]
    rfl
  · rw [stepWith_of_not_halted P s hs, effect_d P s hmovd]

/-- Settles O37: where D is IP, ROT and CRZ leave their result in the executed cell; otherwise it holds what was
fetched. -/
theorem completedStepCiphersTheExecutedCell : Obligations.CompletedStepCiphersTheExecutedCell := by
  intro P s hs hc
  rw [stepWith_read_ip_of_completes hs hc]
  refine ⟨fun hd hi => ?rot, fun hd hi => ?crz, fun h => ?other⟩
  case rot => rw [hi, State.dispatched, State.storeResult_read, if_pos hd.symm, State.operand, hd]
  case crz => rw [hi, State.dispatched, State.storeResult_read, if_pos hd.symm, State.operand, hd]
  case other =>
    have hne : s.fetchWith P = .rot ∨ s.fetchWith P = .crz → s.d ≠ s.ip := fun hi =>
      h.resolve_right fun hneither => hi.elim hneither.1 hneither.2
    rw [State.dispatched_read_ip P hne]

/-! ### The input argument (R74, R126) -/

/-- An operation reports a value as taken exactly when it is IN and there is one. -/
theorem effect_inTaken_iff (P : Params) (i : Instr) (s : State) :
    (effect P i s).inTaken = true ↔ i = .input ∧ s.inp ≠ none := by
  cases i with
  | input =>
    rw [effect]
    cases hx : s.inp with
    | none => simp [inputEffect_none P s hx]
    | some x => simp [inputEffect_some P s x hx]
  | _ => exact ⟨fun h => absurd h Bool.false_ne_true, fun h => nomatch h.1⟩

/-- An operation other than IN does not look at the arguments. -/
theorem effect_setInputs (P : Params) {i : Instr} (s : State) (l : List (Option InputValue)) (hi : i ≠ .input) :
    (effect P i (s.setInputs l)).engine = (effect P i s).engine ∧
      (effect P i (s.setInputs l)).out = (effect P i s).out := by
  cases i with
  | input => exact absurd rfl hi
  | _ => exact ⟨rfl, rfl⟩

/-- The fetch does not depend on the arguments (R73). -/
@[simp] theorem State.fetchWith_setInputs (P : Params) (s : State) (l : List (Option InputValue)) :
    (s.setInputs l).fetchWith P = s.fetchWith P := rfl

/-- Settles O41: a step while HALTED takes nothing and looks at nothing, and past the status gate it is the
operation. -/
theorem onlyInTakesInput : Obligations.OnlyInTakesInput := by
  intro P s
  by_cases hs : s.status = .halted
  · rw [stepWith_of_halted P s hs]
    refine ⟨by simp [hs], fun _ l => ?_⟩
    rw [stepWith_of_halted P (s.setInputs l) hs]
    exact ⟨rfl, rfl⟩
  · rw [stepWith_of_not_halted P s hs]
    refine ⟨by rw [effect_inTaken_iff, and_iff_right hs], fun h l => ?_⟩
    rw [stepWith_of_not_halted P (s.setInputs l) hs, State.fetchWith_setInputs]
    exact effect_setInputs P s l (h.resolve_left hs)

/-! ### Waiting (R72, R83, R102) -/

/-- No operation looks at the status it is entered with: each one ends by setting it. -/
theorem effect_setStatus (P : Params) (i : Instr) (s : State) (st : Status) :
    effect P i (s.setStatus st) = effect P i s := by
  cases i with
  | input =>
    simp only [effect]
    cases hx : s.inp with
    | none =>
      rw [inputEffect_none P s hx, inputEffect_none P (s.setStatus st) hx]
      rfl
    | some x =>
      rw [inputEffect_some P s x hx, inputEffect_some P (s.setStatus st) x hx]
      rfl
  | _ => rfl

/-- A step from any status but HALTED is the operation fetched in the state before the status was set (R72). -/
theorem stepWith_setStatus (P : Params) (s : State) {st : Status} (hst : st ≠ .halted) :
    stepWith P (s.setStatus st) = effect P (s.fetchWith P) s := by
  rw [stepWith_of_not_halted P (s.setStatus st) hst, effect_setStatus]
  rfl

/-- A step at an IN without a value. -/
theorem stepWith_input_none {P : Params} {s : State} (hs : s.status ≠ .halted) (hi : s.fetchWith P = .input)
    (hx : s.inp = none) : stepWith P s = s.wait := by
  rw [stepWith_of_fetch hs hi, effect, inputEffect_none P s hx]

/-- A step at an IN with a value. -/
theorem stepWith_input_some {P : Params} {s : State} {x : InputValue} (hs : s.status ≠ .halted)
    (hi : s.fetchWith P = .input) (hx : s.inp = some x) :
    stepWith P s = (s.setA x.value).complete P (nextAddr s.ip) none true := by
  rw [stepWith_of_fetch hs hi, effect, inputEffect_some P s x hx]

/-- Waiting moves the arguments up by one. -/
theorem State.wait_inputs_getD (s : State) (j : Nat) : s.wait.inputs.getD j none = s.inputs.getD (j + 1) none := by
  rw [State.wait_inputs]
  cases s.inputs <;> rfl

/-- Settles O46, by induction on the number of waits: the first one leaves a state that fetches the same IN, and on
which IN with a value has the same effect. -/
theorem waitingIsIdempotentUntilInput : Obligations.WaitingIsIdempotentUntilInput := by
  intro P k
  induction k with
  | zero =>
    intro s hs hi _
    refine ⟨fun h => absurd h (lt_irrefl 0), rfl, fun x hx => ?_⟩
    rw [← State.inp_eq_getD] at hx
    have hstep : runWith P 1 s = (s.setA x.value).complete P (nextAddr s.ip) none true := stepWith_input_some hs hi hx
    rw [hstep, stepWith_input_some (s := s.setInputs [some x]) hs hi rfl]
    exact ⟨rfl, rfl, rfl⟩
  | succ k ih =>
    intro s hs hi hnone
    have hstep : stepWith P s = s.wait :=
      stepWith_input_none hs hi (s.inp_eq_getD.trans (hnone 0 k.succ_pos))
    have hrest : ∀ j, j < k → s.wait.inputs.getD j none = none := fun j hj =>
      (s.wait_inputs_getD j).trans (hnone (j + 1) (Nat.succ_lt_succ hj))
    obtain ⟨hengine, houts, hvalue⟩ := ih s.wait (by simp) hi hrest
    refine ⟨fun _ => ?engine, ?outputs, fun x hx => ?value⟩
    case engine =>
      rw [runWith, hstep]
      cases k with
      | zero => rfl
      | succ k => exact hengine k.succ_pos
    case outputs =>
      rw [outputsWith, hstep, houts]
      rfl
    case value =>
      have hsame : stepWith P (s.wait.setInputs [some x]) = stepWith P (s.setInputs [some x]) := by
        rw [stepWith_input_some (s := s.wait.setInputs [some x]) (by simp) hi rfl,
          stepWith_input_some (s := s.setInputs [some x]) hs hi rfl]
        rfl
      rw [runWith, hstep, ← hsame]
      exact hvalue x ((s.wait_inputs_getD k).trans hx)

/-- Settles O34: the status a step is entered with shows only at the gate (`stepWith_setStatus`). -/
theorem waitingStepIsTheRunningStep : Obligations.WaitingStepIsTheRunningStep := by
  intro P s
  have hsame : ∀ Q : Params, stepWith Q (s.setStatus .waitingForInput) = stepWith Q (s.setStatus .running) :=
    fun Q => (stepWith_setStatus Q s (by decide)).trans (stepWith_setStatus Q s (by decide)).symm
  refine ⟨hsame P, ?_, ?_⟩
  · rw [step_eq, step_eq, hsame]
  · rw [stepWith_setStatus P s (by decide)]

/-! ### The step's two cases -/

/-- Settles O32: the default fetch decodes the cell at IP. -/
theorem stepRunsTheDecodedInstruction : Obligations.StepRunsTheDecodedInstruction := by
  intro s i hs hi
  have hfetch : s.fetch = i := hi
  rw [step_of_not_halted hs, hfetch]

/-- Settles O33: past a closed status gate the step is `State.idle`. -/
theorem haltedStepDoesNothing : Obligations.HaltedStepDoesNothing := by
  intro s hs
  refine ⟨s.idle, ?_, rfl, rfl, rfl, rfl, hs, rfl, rfl⟩
  rw [step_eq, stepWith_of_halted defaults s hs]

end Sys2Proof.Machine

namespace Sys2Proof.Machine

/-! ### Cells as their ten trits (R8) -/

/-- The number that n trits make depends on these n trits only. -/
theorem tritSum_congr {f g : Nat → Trit} {n : Nat} (h : ∀ i, i < n → f i = g i) : tritSum f n = tritSum g n := by
  induction n with
  | zero => rfl
  | succ n ih => rw [tritSum, tritSum, ih fun i hi => h i (Nat.lt_succ_of_lt hi), h n n.lt_succ_self]

/-- Cells with the same ten trits are equal. -/
theorem cell_ext_trit {v w : Cell} (h : ∀ i, i < 10 → trit v i = trit w i) : v = w := by
  rw [← cellOfTrits_trit v, ← cellOfTrits_trit w]
  exact Fin.ext (tritSum_congr h)

/-- Dividing a cell value by 3 drops its lowest trit. -/
theorem trit_div_three (v : Cell) (h : v.val / 3 < 59049) (i : Nat) : trit ⟨v.val / 3, h⟩ i = trit v (i + 1) := by
  apply Fin.ext
  calc v.val / 3 / 3 ^ i % 3 = v.val / 3 ^ (i + 1) % 3 := by rw [Nat.div_div_eq_div_mul, Nat.pow_succ']

/-! ### Rotation (R90) -/

theorem rotate_left_rotate_right (v : Cell) : rotate .left (rotate .right v) = v := by
  apply Fin.ext
  simp only [rotate]
  omega

theorem rotate_right_rotate_left (v : Cell) : rotate .right (rotate .left v) = v := by
  apply Fin.ext
  simp only [rotate]
  omega

/-- The right rotation in R90's other form, digit by digit: the nine upper trits make v / 3, and the lowest one is put
in front of them. -/
theorem rotate_right_eq_cellOfTrits (v : Cell) : rotate .right v = cellOfTrits fun i => trit v ((i + 1) % 10) := by
  have hlt : v.val / 3 < 3 ^ 9 := by omega
  have hupper : tritSum (fun i => trit v ((i + 1) % 10)) 9 = v.val / 3 :=
    calc tritSum (fun i => trit v ((i + 1) % 10)) 9 = tritSum (trit ⟨v.val / 3, by omega⟩) 9 :=
          tritSum_congr fun i hi => by rw [trit_div_three, Nat.mod_eq_of_lt (Nat.succ_lt_succ hi)]
      _ = v.val / 3 := (tritSum_trit _ 9).trans (Nat.mod_eq_of_lt hlt)
  have hlowest : (trit v 0).val = v.val % 3 := congrArg (· % 3) (Nat.div_one v.val)
  apply Fin.ext
  calc v.val / 3 + v.val % 3 * 3 ^ 9
      = tritSum (fun i => trit v ((i + 1) % 10)) 9 + (trit v 0).val * 3 ^ 9 := by rw [hupper, hlowest]

/-- How many places up, around the ten, the trit stands that a rotation brings to a place. -/
def rotPlaces : RotDir → Nat
  | .right => 1
  | .left => 9

/-- Every trit of a rotated cell. The right rotation is read off its digits; the left one moves the trits as the right
one, which undoes it, moves them back. -/
theorem trit_rotate (dir : RotDir) (v : Cell) {i : Nat} (hi : i < 10) :
    trit (rotate dir v) i = trit v ((i + rotPlaces dir) % 10) := by
  have hright : ∀ (w : Cell) (j : Nat), j < 10 → trit (rotate .right w) j = trit w ((j + 1) % 10) := fun w j hj => by
    rw [rotate_right_eq_cellOfTrits, trit_cellOfTrits _ hj]
  cases dir with
  | right => exact hright v i hi
  | left =>
    have hback : ((i + 9) % 10 + 1) % 10 = i := by omega
    calc trit (rotate .left v) i = trit (rotate .left v) (((i + 9) % 10 + 1) % 10) := by rw [hback]
      _ = trit (rotate .right (rotate .left v)) ((i + 9) % 10) := (hright _ _ (Nat.mod_lt _ (by decide))).symm
      _ = trit v ((i + 9) % 10) := by rw [rotate_right_rotate_left]

/-- Every trit after n rotations in one direction. -/
theorem trit_rotate_iterate (dir : RotDir) (n : Nat) (v : Cell) {i : Nat} (hi : i < 10) :
    trit ((rotate dir)^[n] v) i = trit v ((i + n * rotPlaces dir) % 10) := by
  induction n generalizing v with
  | zero => rw [Function.iterate_zero_apply, Nat.zero_mul, Nat.add_zero, Nat.mod_eq_of_lt hi]
  | succ n ih =>
    rw [Function.iterate_succ_apply, ih, trit_rotate dir v (Nat.mod_lt _ (by decide)), Nat.mod_add_mod, Nat.add_assoc,
      Nat.succ_mul]

/-- Ten rotations bring every trit back to its place. -/
theorem rotate_iterate_ten (dir : RotDir) (v : Cell) : (rotate dir)^[10] v = v :=
  cell_ext_trit fun i hi => by rw [trit_rotate_iterate dir 10 v hi, Nat.add_mul_mod_self_left, Nat.mod_eq_of_lt hi]

/-- Settles O16. -/
theorem tenRotationsAreTheIdentity : Obligations.TenRotationsAreTheIdentity := fun dir v =>
  ⟨rotate_iterate_ten dir v, rotate_left_rotate_right v, rotate_right_rotate_left v⟩

/-- Settles O17, each clause by the source place that `trit_rotate` gives. -/
theorem rotationMovesEveryTritOnePlace : Obligations.RotationMovesEveryTritOnePlace := by
  intro v
  refine ⟨fun i hi => ?right, trit_rotate .right v (i := 9) (by decide), fun i hi => ?left,
    trit_rotate .left v (i := 0) (by decide)⟩
  case right =>
    have hplace : (i + 1) % 10 = i + 1 := Nat.mod_eq_of_lt (by omega)
    rw [trit_rotate .right v (by omega), rotPlaces, hplace]
  case left =>
    have hplace : (i + 1 + 9) % 10 = i := by omega
    rw [trit_rotate .left v (by omega), rotPlaces, hplace]

/-! ### The crazy operation (R92) -/

/-- Settles O18: `crazy` makes a cell of the ten table entries, and `trit_cellOfTrits` reads them off it. -/
theorem crazyActsTritByTrit : Obligations.CrazyActsTritByTrit := fun _ _ _ _ hi =>
  trit_cellOfTrits _ hi

/-- Settles O20, entry by entry. -/
theorem defaultCrazyTable : Obligations.DefaultCrazyTable :=
  ⟨rfl, rfl, rfl, rfl, rfl, rfl, rfl, rfl, rfl⟩

/-! ### ROT, CRZ and MOVD as a whole (R91, R93, R94) -/

/-- The advance (R78). -/
theorem nextAddr_val (c : Cell) : (nextAddr c).val = (c.val + 1) % 59049 := rfl

/-- Result and frame of an operation that stores r at D and in A and then completes: ROT and CRZ (R91, R93). -/
theorem State.storeResult_complete_frame (s : State) (P : Params) (r : Cell) {t : State}
    (ht : t = (s.storeResult r).complete P (nextAddr s.ip) none false) :
    t.a = r ∧ t.d = s.d ∧ t.ip.val = (s.ip.val + 1) % 59049 ∧
      t.status = .running ∧ t.out = none ∧ t.inTaken = false ∧ t.inputs = s.inputs.tail ∧
      ∀ x, t.mem.read x =
        if x = s.ip then P.cipher (if s.ip = s.d then r else s.mem.read s.ip)
        else if x = s.d then r else s.mem.read x := by
  subst ht
  simp only [State.complete_a, State.complete_d, State.complete_ip, State.complete_status, State.complete_out,
    State.complete_inTaken, State.complete_inputs, State.storeResult_a, State.storeResult_d, State.storeResult_inputs,
    nextAddr_val, true_and]
  exact s.storeResult_complete_read P r _ none false

/-- Settles O23. -/
theorem rotStoresTheRotatedOperand : Obligations.RotStoresTheRotatedOperand := fun s =>
  ⟨rotEffect defaults s, exec_eq .rot s, s.storeResult_complete_frame defaults _ rfl⟩

/-- Settles O24. -/
theorem crzStoresTheCrazyResult : Obligations.CrzStoresTheCrazyResult := fun s =>
  ⟨crzEffect defaults s, exec_eq .crz s, s.storeResult_complete_frame defaults _ rfl⟩

/-- Settles O25: D is loaded before the common phases, which cipher the cell at IP and leave D alone. -/
theorem movdLoadsD : Obligations.MovdLoadsD := fun s =>
  ⟨movdEffect defaults s, exec_eq .movd s, rfl, rfl, nextAddr_val s.ip, rfl, rfl, rfl, rfl,
    (s.setD s.operand).complete_read defaults _ none false⟩

end Sys2Proof.Machine

namespace Sys2Proof.Machine

/-! ### IN and OUT as a whole (R100 to R103) -/

/-- A byte is stored as its number (R100). -/
theorem InputValue.value_byte_val (b : Byte) : (InputValue.byte b).value.val = b.toNat := rfl

/-- End of input is stored as the largest cell value (R100). -/
theorem InputValue.value_eof_val : InputValue.eof.value.val = 59048 := rfl

/-- The byte OUT gives is the remainder of A modulo 256 (R103). -/
theorem outByte_toNat (a : Cell) : (outByte a).toNat = a.val % 256 := by
  rw [outByte, BitVec.toNat_ofNat]
  exact Nat.mod_mod _ _

/-- A wait leaves the engine of a state that waits already as it is (R102). -/
theorem State.wait_engine_of_waiting {s : State} (hs : s.status = .waitingForInput) : s.wait.engine = s.engine :=
  (State.engine_eq_iff s.wait s).2 ⟨rfl, rfl, rfl, rfl, hs.symm⟩

/-- `exec` of IN when the host offers a value (R101). -/
theorem exec_input_some {s : State} {x : InputValue} (hx : s.inp = some x) :
    exec .input s = .next ((s.setA x.value).complete defaults (nextAddr s.ip) none true) := by
  rw [exec_eq, effect, inputEffect_some defaults s x hx]

/-- `exec` of IN when the host offers none (R102). -/
theorem exec_input_none {s : State} (hx : s.inp = none) : exec .input s = .next s.wait := by
  rw [exec_eq, effect, inputEffect_none defaults s hx]

/-- Settles O26: A is loaded before the common phases, which cipher the cell at IP and leave A alone. -/
theorem inputStoresTheOfferedValue : Obligations.InputStoresTheOfferedValue := by
  intro s x hx
  refine ⟨_, exec_input_some hx, fun b hb => ?byte, fun heof => ?eof, rfl, rfl, nextAddr_val s.ip, rfl, rfl, rfl,
    (s.setA x.value).complete_read defaults _ none true⟩
  case byte => rw [State.complete_a, State.setA_a, hb, InputValue.value_byte_val]
  case eof => rw [State.complete_a, State.setA_a, heof, InputValue.value_eof_val]

/-- Settles O27: without a value IN is `State.wait`, for `exec` and for a step entered waiting. -/
theorem inputWithoutAValueWaits : Obligations.InputWithoutAValueWaits := by
  refine ⟨fun s hx => ⟨s.wait, exec_input_none hx, rfl, rfl, rfl, rfl, rfl, rfl, rfl, rfl⟩, fun P s hs hi hx => ?_⟩
  have hrunnable : s.status ≠ .halted := by simp [hs]
  rw [stepWith_input_none hrunnable hi hx]
  exact ⟨State.wait_engine_of_waiting hs, rfl, rfl⟩

/-- Settles O28: the output is computed from A as the step found it, and the common phases change neither A nor D. -/
theorem outputGivesTheLowByteOfA : Obligations.OutputGivesTheLowByteOfA := fun s =>
  ⟨outputEffect defaults s, outByte s.a, exec_eq .output s, rfl, outByte_toNat s.a, rfl, rfl, nextAddr_val s.ip, rfl,
    rfl, rfl, s.complete_read defaults _ _ false⟩

end Sys2Proof.Machine

namespace Sys2Proof.Machine

/-! ### NOP, JMP and HLT as a whole (R110 to R112) -/

/-- Settles O22: NOP is the common phases alone, with the advance as the next address. -/
theorem nopCiphersItsCellAndAdvances : Obligations.NopCiphersItsCellAndAdvances := fun s =>
  ⟨nopEffect defaults s, exec_eq .nop s, rfl, rfl, nextAddr_val s.ip, rfl, rfl, rfl, rfl,
    s.complete_read defaults _ none false⟩

/-- Settles O29: JMP is the common phases with D as the next address. They cipher the cell at the IP they start from,
which is the cell jumped from. -/
theorem jmpGoesToTheValueOfD : Obligations.JmpGoesToTheValueOfD := fun s =>
  ⟨jmpEffect defaults s, exec_eq .jmp s, rfl, rfl, rfl, rfl, rfl, rfl, rfl, s.complete_read defaults s.d none false⟩

/-- Settles O30: HLT is `State.halt`, which runs none of the common phases. -/
theorem hltChangesOnlyTheStatus : Obligations.HltChangesOnlyTheStatus := fun s =>
  ⟨s.halt, exec_eq .hlt s, s.halt_mem, s.halt_ip, s.halt_a, s.halt_d, s.halt_status, s.halt_out, s.halt_inTaken,
    s.halt_inputs⟩

end Sys2Proof.Machine

namespace Sys2Proof.Machine

/-! ### Output (R103, R129) -/

/-- What an operation returns as output: OUT the low byte of A, every other operation nothing. -/
theorem effect_out (P : Params) (i : Instr) (s : State) :
    (effect P i s).out = if i = .output then some (outByte s.a) else none := by
  cases i with
  | input =>
    rw [effect]
    cases hx : s.inp with
    | none => rw [inputEffect_none P s hx]; rfl
    | some x => rw [inputEffect_some P s x hx]; rfl
  | _ => rfl

/-- The byte OUT gives is the only one that is A mod 256. -/
theorem outByte_eq_iff (a : Cell) (b : Byte) : outByte a = b ↔ b.toNat = a.val % 256 := by
  rw [← BitVec.toNat_inj, outByte_toNat, eq_comm]

/-- Settles O40: a step while HALTED returns nothing, and past the status gate `effect_out` says what is returned. -/
theorem onlyOutProducesOutput : Obligations.OnlyOutProducesOutput := by
  intro P s b
  by_cases hs : s.status = .halted
  · simp [stepWith_of_halted P s hs, hs]
  · rw [stepWith_of_not_halted P s hs, effect_out, and_iff_right hs]
    by_cases hi : s.fetchWith P = .output
    · rw [if_pos hi, and_iff_right hi, Option.some_inj, outByte_eq_iff]
    · simp [hi]

/-! ### The host's queue (R125 to R127) -/

/-- The protocol offers a value only to a waiting engine, and then the front of the queue, or end of input when the
queue is empty and the stream has ended. -/
theorem Caller.offer_eq_some {h : Caller} {st : Status} {v : InputValue} (hv : h.offer st = some v) :
    st = .waitingForInput ∧
      ((∃ b q, h.queue = b :: q ∧ v = .byte b) ∨ (h.queue = [] ∧ h.streamEnded = true ∧ v = .eof)) := by
  obtain ⟨queue, streamEnded⟩ := h
  cases st with
  | running => cases hv
  | halted => cases hv
  | waitingForInput =>
    refine ⟨rfl, ?_⟩
    cases queue with
    | cons b q =>
      cases hv
      exact .inl ⟨b, q, rfl, rfl⟩
    | nil =>
      cases streamEnded with
      | false => cases hv
      | true =>
        cases hv
        exact .inr ⟨rfl, rfl, rfl⟩

/-- The engine's step within a turn. -/
theorem Session.turn_state (P : Params) (x : Session) :
    (x.turn P).state = stepWith P (x.state.setInputs [x.caller.offer x.state.status]) := rfl

/-- A turn whose step takes no value leaves the host's queue and the values taken as they are. -/
theorem Session.turn_of_not_taken {P : Params} {x : Session} (h : (x.turn P).state.inTaken = false) :
    (x.turn P).taken = x.taken ∧ (x.turn P).caller = x.caller := by
  rw [Session.turn_state] at h
  simp [Session.turn, Caller.after, h]

/-- A turn whose step takes the value offered adds it to the values taken, and the queue loses its front. -/
theorem Session.turn_of_taken {P : Params} {x : Session} {v : InputValue}
    (hv : x.caller.offer x.state.status = some v) (h : (x.turn P).state.inTaken = true) :
    (x.turn P).taken = x.taken ++ [v] ∧ (x.turn P).caller = { x.caller with queue := x.caller.queue.tail } := by
  rw [Session.turn_state, hv] at h
  simp [Session.turn, Caller.after, hv, h]

/-- A value can be taken only where one is offered (R74, R126). -/
theorem Session.exists_offer_of_taken {P : Params} {x : Session} (h : (x.turn P).state.inTaken = true) :
    ∃ v, x.caller.offer x.state.status = some v := by
  rw [Session.turn_state] at h
  obtain ⟨-, -, hinp⟩ := (onlyInTakesInput P _).1.1 h
  exact Option.ne_none_iff_exists'.1 hinp

/-- Everything a turn can do to the values taken and the host's queue: nothing; take the byte at the front; or, with
the queue empty and the stream ended, take end of input. -/
theorem Session.turn_cases (P : Params) (x : Session) :
    ((x.turn P).taken = x.taken ∧ (x.turn P).caller = x.caller) ∨
    (∃ b q, x.caller.queue = b :: q ∧ (x.turn P).taken = x.taken ++ [.byte b] ∧
      (x.turn P).caller = { x.caller with queue := q }) ∨
    (x.caller.queue = [] ∧ x.caller.streamEnded = true ∧ (x.turn P).taken = x.taken ++ [.eof] ∧
      (x.turn P).caller = { x.caller with queue := [] }) := by
  cases htaken : (x.turn P).state.inTaken with
  | false => exact .inl (Session.turn_of_not_taken htaken)
  | true =>
    obtain ⟨v, hv⟩ := Session.exists_offer_of_taken htaken
    have hturn := Session.turn_of_taken hv htaken
    obtain ⟨-, ⟨b, q, hq, rfl⟩ | ⟨hq, hended, rfl⟩⟩ := Caller.offer_eq_some hv
    · rw [hq] at hturn
      exact .inr (.inl ⟨b, q, hq, hturn⟩)
    · rw [hq] at hturn
      exact .inr (.inr ⟨hq, hended, hturn⟩)

/-- Settles O54, by induction on the number of turns: what the first turn took (`Session.turn_cases`) stands before
what the others take from the queue it leaves. -/
theorem protocolTakesInputsInArrivalOrder : Obligations.ProtocolTakesInputsInArrivalOrder := by
  intro P k
  induction k with
  | zero => exact fun x => ⟨0, 0, Nat.zero_le _, by simp [Session.turns], rfl, fun h => absurd h (lt_irrefl 0)⟩
  | succ k ih =>
    intro x
    obtain ⟨n, m, hn, htaken, hqueue, hend⟩ := ih (x.turn P)
    rw [Session.turns, htaken, hqueue]
    obtain ⟨hx, hc⟩ | ⟨b, q, hq, hx, hc⟩ | ⟨hq, hended, hx, hc⟩ := x.turn_cases P
    case inl =>
      rw [hc] at hn hend ⊢
      exact ⟨n, m, hn, by rw [hx], rfl, hend⟩
    case inr.inl =>
      rw [hc] at hn hend ⊢
      refine ⟨n + 1, m, ?_, ?_, ?_, fun hm => ⟨?_, (hend hm).2⟩⟩
      · rw [hq]
        exact Nat.succ_le_succ hn
      · simp [hx, hq]
      · rw [hq, List.drop_succ_cons]
      · rw [hq, List.length_cons, (hend hm).1]
    case inr.inr =>
      rw [hc] at hn ⊢
      obtain rfl : n = 0 := Nat.le_zero.1 hn
      refine ⟨0, m + 1, Nat.zero_le _, ?_, hq.symm, fun _ => ⟨by rw [hq]; rfl, hended⟩⟩
      simp [hx, List.replicate_succ]

/-- Settles O53: a value is offered only to a waiting engine, which stands at an IN. -/
theorem valueOfferedUnderTheProtocolIsTaken : Obligations.ValueOfferedUnderTheProtocolIsTaken := by
  intro P x v hwait hv
  obtain ⟨hs, -⟩ := Caller.offer_eq_some hv
  have hrunnable : (x.state.setInputs [some v]).status ≠ .halted := by simp [hs]
  have hstate : (x.turn P).state =
      ((x.state.setInputs [some v]).setA v.value).complete P (nextAddr x.state.ip) none true := by
    rw [Session.turn_state, hv]
    exact stepWith_input_some hrunnable (hwait hs) rfl
  have htaken : (x.turn P).state.inTaken = true := by rw [hstate, State.complete_inTaken]
  obtain ⟨hx, hc⟩ := Session.turn_of_taken hv htaken
  exact ⟨htaken, by rw [hstate, State.complete_a, State.setA_a], hx, by rw [hc]⟩

/-! ### The input ports (R123, R124, R143) -/

/-- With `load` the event is the load, whatever else the ports carry. -/
theorem PortIn.event_of_load {p : PortIn} (hload : p.load = true) : p.event = .ok (some (.load p.img)) := by
  rw [PortIn.event, if_pos hload]

/-- With `step_req` alone the event is a step, if the ports carry an input argument. -/
theorem PortIn.event_of_stepReq {p : PortIn} (hload : p.load = false) (hstep : p.stepReq = true) :
    p.event = (inputOfPorts p.inValid p.inData).map fun inp => some (.step inp) := by
  rw [PortIn.event, if_neg (Bool.eq_false_iff.1 hload), if_pos hstep]

/-- With neither there is no event. -/
theorem PortIn.event_of_idle {p : PortIn} (hload : p.load = false) (hstep : p.stepReq = false) :
    p.event = .ok none := by
  rw [PortIn.event, if_neg (Bool.eq_false_iff.1 hload), if_neg (Bool.eq_false_iff.1 hstep)]

/-- Settles O56, one lemma for each branch of `PortIn.event`. -/
theorem loadOverridesAStepRequest : Obligations.LoadOverridesAStepRequest := by
  refine fun p => ⟨PortIn.event_of_load, fun hload hstep inp hinp => ?_, PortIn.event_of_idle⟩
  rw [PortIn.event_of_stepReq hload hstep, hinp]
  rfl

end Sys2Proof.Machine

namespace Sys2Proof.Machine

/-! ### A halted engine (R71, R133, R166) -/

/-- A halted engine stays as it is through any number of steps. -/
theorem runWith_engine_of_halted (P : Params) (k : Nat) {s : State} (hs : s.status = .halted) :
    (runWith P k s).engine = s.engine := by
  induction k generalizing s with
  | zero => rfl
  | succ k ih => rw [runWith, stepWith_of_halted P s hs, ih (s.idle_status.trans hs), State.idle_engine]

/-- A halted engine outputs nothing in any number of steps. -/
theorem outputsWith_of_halted (P : Params) (k : Nat) {s : State} (hs : s.status = .halted) :
    outputsWith P k s = [] := by
  induction k generalizing s with
  | zero => rfl
  | succ k ih =>
    rw [outputsWith, stepWith_of_halted P s hs, ih (s.idle_status.trans hs), State.idle_out]
    rfl

/-- Settles O45: the run behind the host's interface is the engine's run with the default parameters
(`everyRunGoesOn`). -/
theorem haltedIsForEver : Obligations.HaltedIsForEver := fun P k s hs =>
  ⟨runWith_engine_of_halted P k hs, outputsWith_of_halted P k hs, runWith defaults k s, everyRunGoesOn k s,
    runWith_engine_of_halted defaults k hs⟩

/-! ### The operand cell is the instruction cell (R37, R165) -/

/-- Where D is IP, the operand is the cell as fetched. -/
theorem State.operand_of_d_eq_ip {s : State} (hd : s.d = s.ip) : s.operand = s.mem.read s.ip := by
  rw [State.operand, hd]

/-- Where D is IP, the cipher of ROT and CRZ acts on the result they stored (R165 a, b). -/
theorem State.storeResult_complete_read_ip {s : State} (hd : s.d = s.ip) (P : Params) (r n : Cell) (o : Option Byte)
    (b : Bool) : ((s.storeResult r).complete P n o b).mem.read s.ip = P.cipher r := by
  rw [← hd, State.storeResult_complete_read_d, if_pos hd]

/-- The cell MOVD has executed: the load of D leaves it for the cipher as it was fetched (R165 c). -/
theorem State.setD_complete_read_ip (s : State) (v : Cell) (P : Params) (n : Cell) (o : Option Byte) (b : Bool) :
    ((s.setD v).complete P n o b).mem.read s.ip = P.cipher (s.mem.read s.ip) :=
  ((s.setD v).complete_read P n o b s.ip).trans (if_pos rfl)

/-- Settles O31: for ROT and CRZ the cipher comes after the store, for MOVD the operand read comes before the
cipher. -/
theorem operandAtIpIsStoredBeforeTheCipher : Obligations.OperandAtIpIsStoredBeforeTheCipher := by
  intro s hd
  have hoperand := State.operand_of_d_eq_ip hd
  refine ⟨⟨rotEffect defaults s, exec_eq .rot s, ?rotA, State.storeResult_complete_read_ip hd _ _ _ _ _⟩,
    ⟨crzEffect defaults s, exec_eq .crz s, ?crzA, State.storeResult_complete_read_ip hd _ _ _ _ _⟩,
    ⟨movdEffect defaults s, exec_eq .movd s, hoperand, ?movdCell⟩⟩
  case rotA => rw [rotEffect, State.complete_a, State.storeResult_a, hoperand]
  case crzA => rw [crzEffect, State.complete_a, State.storeResult_a, hoperand]
  case movdCell => rw [movdEffect, State.setD_complete_read_ip, State.complete_d, State.setD_d, hoperand]

end Sys2Proof.Machine
